-- ==== Sys2Proof/Word.lean ====
section
/-! DEFINITION. The two word types of the G-CPU: bytes (accumulators, memory cells, opcode bytes; `10_state.md` R21, R22,
`20_memory.md` R50) and 16-bit words (index registers, PC, addresses; R23, R24, R27). -/

namespace Sys2Proof

/-- An 8-bit value, unsigned (`00_scope.md` section 5: "no register is signed"). -/
abbrev Byte := BitVec 8

/-- A 16-bit value, unsigned: an index register, the PC or an address (`00_scope.md` R4). -/
abbrev Word := BitVec 16

end Sys2Proof
end

