-- ==== Sys2Proof/Config.lean ====
section
/-! DEFINITION. What is fixed for one machine: the open parameters of `00_scope.md` R5 as data types. Their default
values that a test may have to replace (the opcode map above all) stand in `Sys2Proof/Decode.lean`. -/

namespace Sys2Proof

/-- The 42 documented instruction forms, in the order of the opcode map's table (`30_encoding.md` R92). -/
inductive Form where
  | tab | tba | ldaaImm | ldabImm | ldaaAbs | ldabAbs | staaAbs | stabAbs | ldxAbs | ldyAbs | ldxImm | ldyImm
  | ldaaX | ldaaY | ldabX | ldabY | staaX | staaY | stabX | stabY
  | sumBa | sumAb | andBa | andAb | orBa | orAb | coma | comb | shfaL | shfaR | shfbL | shfbR | inx | iny
  | beq | bne | bn | bp | beq16 | bne16 | bn16 | bp16
  deriving DecidableEq, Repr

/-- The seven instruction formats (`30_encoding.md` R91). -/
inductive Format where
  | inh | imm8 | idx | br8 | imm16 | abs | br16
  deriving DecidableEq, Repr

/-- The parameter OPCODE_MAP (R5, D1): a dense array indexed by the opcode byte (R95), with `none` at a code that
no documented instruction is assigned to. The codes 0x00 to 0x31 are its indexes (R92, R93). -/
abbrev OpcodeMap := List (Option Form)

/-- The parameter INIT_REGS (`70_reset_and_hazards.md` R291): A0, B0, X0, Y0. -/
structure InitRegs where
  a0 : Byte
  b0 : Byte
  x0 : Word
  y0 : Word
  deriving DecidableEq, Repr

/-- The registers `State.reset` starts with. DESIGN CHOICE (log 2, unsafe): the spec leaves INIT_REGS open; zero. -/
def InitRegs.zero : InitRegs := { a0 := 0, b0 := 0, x0 := 0, y0 := 0 }

/-- The parameters MMIO_BASE, MMIO_INPUT_OFFSET and MMIO_INPUT_COUNT (`60_exceptions.md` R261, D17), as numbers. -/
structure Mmio where
  base : Nat
  inputOffset : Nat
  inputCount : Nat
  deriving DecidableEq, Repr

/-- The parameter HOST_INTERLEAVE (`20_memory.md` R65, D16). -/
inductive HostInterleave where
  | betweenSteps
  | betweenAccesses
  deriving DecidableEq, Repr

/-- The five open parameters of the hardware (`00_scope.md` R5). "No other value is left to the implementation." -/
structure Params where
  opcodeMap : OpcodeMap
  initRegs : InitRegs
  mmio : Mmio
  interleave : HostInterleave
  stopSet : List Word
  deriving DecidableEq, Repr

end Sys2Proof
end

