-- ==== Sys2Proof/Syntax.lean ====
section
/-! DEFINITION. The instructions: one constructor for each of the 42 documented instructions of `30_encoding.md` R92,
and one for each of the two remaining mnemonics of the opcode table, whose rows only split a range of opcode bytes into
masks (log 24): the in-range codes with no documented instruction (R94) and the codes above the range (R93).
An operand is held as the number its bytes encode (R96, R97); no operand is signed. -/

namespace Sys2Proof

inductive Instr where
  -- register transfer (R160, R161)
  | tab
  | tba
  -- immediate load (R162, R163)
  | ldaaImm (v : Byte)
  | ldabImm (v : Byte)
  -- absolute load and store (R164 to R169)
  | ldaaAbs (addr : Word)
  | ldabAbs (addr : Word)
  | staaAbs (addr : Word)
  | stabAbs (addr : Word)
  | ldxAbs (addr : Word)
  | ldyAbs (addr : Word)
  -- immediate 16 (R170, R171)
  | ldxImm (v : Word)
  | ldyImm (v : Word)
  -- indexed (R173 to R180)
  | ldaaX (d : Byte)
  | ldaaY (d : Byte)
  | ldabX (d : Byte)
  | ldabY (d : Byte)
  | staaX (d : Byte)
  | staaY (d : Byte)
  | stabX (d : Byte)
  | stabY (d : Byte)
  -- ALU (R201 to R212)
  | sumBa
  | sumAb
  | andBa
  | andAb
  | orBa
  | orAb
  | coma
  | comb
  | shfaL
  | shfaR
  | shfbL
  | shfbR
  -- increment (R213, R214)
  | inx
  | iny
  -- 8-bit branch (R232 to R235)
  | beq (t : Byte)
  | bne (t : Byte)
  | bn (t : Byte)
  | bp (t : Byte)
  -- 16-bit branch (R237 to R240)
  | beq16 (t : Word)
  | bne16 (t : Word)
  | bn16 (t : Word)
  | bp16 (t : Word)
  -- a code of 0x00 to 0x31 that OPCODE_MAP assigns to no documented instruction (R94)
  | undocumented (op : Byte)
  -- a code of 0x32 to 0xFF (R93)
  | illegal (op : Byte)
  deriving DecidableEq, Repr

end Sys2Proof
end

