-- ==== Sys2Proof/WellFormed.lean ====
section
/-! DEFINITION. When an instruction is well formed under an opcode map, and when an opcode map is one.
Every operand value is legal (`30_encoding.md` R101: "every byte value 0..255 is a legal operand byte"), so the only
checks are on the opcode bytes that are no documented instruction (R93, R94). -/

namespace Sys2Proof

/-- The documented instruction at an opcode byte: none above 0x31 under any map (R93), none where the map has none (R94). -/
def OpcodeMap.formAt (m : OpcodeMap) (op : Byte) : Option Form :=
  if op.toNat < 0x32 then (m[op.toNat]?).join else none

/-- Well-formedness under a map: an undocumented opcode lies in range and is unassigned (R94), an illegal one lies
above the range (R93); every other instruction is well formed. -/
def Instr.wfUnder (m : OpcodeMap) : Instr → Bool
  | .undocumented op => decide (op.toNat < 0x32) && (m.formAt op).isNone
  | .illegal op => decide (0x32 ≤ op.toNat)
  | .tab | .tba | .ldaaImm _ | .ldabImm _ | .ldaaAbs _ | .ldabAbs _ | .staaAbs _ | .stabAbs _ | .ldxAbs _ | .ldyAbs _
  | .ldxImm _ | .ldyImm _ | .ldaaX _ | .ldaaY _ | .ldabX _ | .ldabY _ | .staaX _ | .staaY _ | .stabX _ | .stabY _
  | .sumBa | .sumAb | .andBa | .andAb | .orBa | .orAb | .coma | .comb | .shfaL | .shfaR | .shfbL | .shfbR | .inx | .iny
  | .beq _ | .bne _ | .bn _ | .bp _ | .beq16 _ | .bne16 _ | .bn16 _ | .bp16 _ => true

/-- The documented forms, in the order of R92's table. -/
def allForms : List Form :=
  [.tab, .tba, .ldaaImm, .ldabImm, .ldaaAbs, .ldabAbs, .staaAbs, .stabAbs, .ldxAbs, .ldyAbs, .ldxImm, .ldyImm] ++
  [.ldaaX, .ldaaY, .ldabX, .ldabY, .staaX, .staaY, .stabX, .stabY] ++
  [.sumBa, .sumAb, .andBa, .andAb, .orBa, .orAb, .coma, .comb, .shfaL, .shfaR, .shfbL, .shfbR, .inx, .iny] ++
  [.beq, .bne, .bn, .bp, .beq16, .bne16, .bn16, .bp16]

/-- A legal value of OPCODE_MAP: the codes 0x00 to 0x31, each documented instruction at exactly one of them (R92, D1). -/
def OpcodeMap.valid (m : OpcodeMap) : Bool :=
  decide (m.length = 0x32) && allForms.all (fun f => decide (m.count (some f) = 1))

end Sys2Proof
end

