-- ==== Sys2Proof/Decode.lean ====
section
/-! DEFINITION. The decoder and the encoder of `30_encoding.md` sections 1 to 3, both over an OPCODE_MAP, and the
default map of R92. Decoding is total: the opcode byte alone selects the form and the length (R90, R99). -/

namespace Sys2Proof

/-! ### Bytes of a 16-bit value -/

/-- `concat16(hi, lo) = hi * 256 + lo` (`00_scope.md` section 5). -/
def concat16 (hi lo : Byte) : Word := BitVec.ofNat 16 (hi.toNat * 256 + lo.toNat)

/-- Bits 7:0 of a 16-bit value. -/
def lowByte (w : Word) : Byte := BitVec.ofNat 8 w.toNat

/-- Bits 15:8 of a 16-bit value. -/
def highByte (w : Word) : Byte := BitVec.ofNat 8 (w.toNat / 256)

/-! ### The opcode map -/

/-- The default OPCODE_MAP: the 42 documented instructions take 0x00 to 0x29 in the order of R92's table, and the
codes 0x2A to 0x31 are assigned to none. DESIGN CHOICE of the spec (D1; log 3, unsafe): the source gives no codes. -/
def defaultMap : OpcodeMap :=
  [some .tab, some .tba, some .ldaaImm, some .ldabImm, some .ldaaAbs, some .ldabAbs, some .staaAbs, some .stabAbs] ++
  [some .ldxAbs, some .ldyAbs, some .ldxImm, some .ldyImm, some .ldaaX, some .ldaaY, some .ldabX, some .ldabY] ++
  [some .staaX, some .staaY, some .stabX, some .stabY, some .sumBa, some .sumAb, some .andBa, some .andAb] ++
  [some .orBa, some .orAb, some .coma, some .comb, some .shfaL, some .shfaR, some .shfbL, some .shfbR] ++
  [some .inx, some .iny, some .beq, some .bne, some .bn, some .bp, some .beq16, some .bne16, some .bn16, some .bp16] ++
  [none, none, none, none, none, none, none, none]

/-- The opcode byte a map gives a documented instruction. -/
def OpcodeMap.codeOf (m : OpcodeMap) (f : Form) : Byte := BitVec.ofNat 8 (m.idxOf (some f))

/-- Well-formedness under the default map. -/
def Instr.wf (i : Instr) : Bool := i.wfUnder defaultMap

/-! ### Formats and lengths -/

/-- The format of each documented instruction (R92). -/
def Form.format : Form → Format
  | .tab | .tba => .inh
  | .ldaaImm | .ldabImm => .imm8
  | .ldaaAbs | .ldabAbs | .staaAbs | .stabAbs | .ldxAbs | .ldyAbs => .abs
  | .ldxImm | .ldyImm => .imm16
  | .ldaaX | .ldaaY | .ldabX | .ldabY | .staaX | .staaY | .stabX | .stabY => .idx
  | .sumBa | .sumAb | .andBa | .andAb | .orBa | .orAb | .coma | .comb | .shfaL | .shfaR | .shfbL | .shfbR => .inh
  | .inx | .iny => .inh
  | .beq | .bne | .bn | .bp => .br8
  | .beq16 | .bne16 | .bn16 | .bp16 => .br16

/-- The number of operand bytes of a format (R91): 0, 1 or 2. -/
def Format.operandCount : Format → Nat
  | .inh => 0
  | .imm8 | .idx | .br8 => 1
  | .imm16 | .abs | .br16 => 2

/-- The length in bytes of a documented instruction (R100, R101). -/
def Form.length (f : Form) : Nat := f.format.operandCount + 1

/-! ### From opcode and operand bytes to an instruction -/

/-- The instruction of a form with operand bytes `b1` (at PC+1) and `b2` (at PC+2): an 8-bit operand is `b1` unsigned
(R96), a 16-bit operand is `concat16 b2 b1` (R97). A byte the format does not have is ignored (log 27). -/
def Form.instr (f : Form) (b1 b2 : Byte) : Instr :=
  match f with
  | .tab => .tab
  | .tba => .tba
  | .ldaaImm => .ldaaImm b1
  | .ldabImm => .ldabImm b1
  | .ldaaAbs => .ldaaAbs (concat16 b2 b1)
  | .ldabAbs => .ldabAbs (concat16 b2 b1)
  | .staaAbs => .staaAbs (concat16 b2 b1)
  | .stabAbs => .stabAbs (concat16 b2 b1)
  | .ldxAbs => .ldxAbs (concat16 b2 b1)
  | .ldyAbs => .ldyAbs (concat16 b2 b1)
  | .ldxImm => .ldxImm (concat16 b2 b1)
  | .ldyImm => .ldyImm (concat16 b2 b1)
  | .ldaaX => .ldaaX b1
  | .ldaaY => .ldaaY b1
  | .ldabX => .ldabX b1
  | .ldabY => .ldabY b1
  | .staaX => .staaX b1
  | .staaY => .staaY b1
  | .stabX => .stabX b1
  | .stabY => .stabY b1
  | .sumBa => .sumBa
  | .sumAb => .sumAb
  | .andBa => .andBa
  | .andAb => .andAb
  | .orBa => .orBa
  | .orAb => .orAb
  | .coma => .coma
  | .comb => .comb
  | .shfaL => .shfaL
  | .shfaR => .shfaR
  | .shfbL => .shfbL
  | .shfbR => .shfbR
  | .inx => .inx
  | .iny => .iny
  | .beq => .beq b1
  | .bne => .bne b1
  | .bn => .bn b1
  | .bp => .bp b1
  | .beq16 => .beq16 (concat16 b2 b1)
  | .bne16 => .bne16 (concat16 b2 b1)
  | .bn16 => .bn16 (concat16 b2 b1)
  | .bp16 => .bp16 (concat16 b2 b1)

/-- The instruction an opcode byte and its operand bytes stand for, by the opcode alone (R90, R93, R94). -/
def instrAt (m : OpcodeMap) (op b1 b2 : Byte) : Instr :=
  match m.formAt op with
  | some f => f.instr b1 b2
  | none => if op.toNat < 0x32 then .undocumented op else .illegal op

/-- How many operand bytes follow an opcode byte (R99); none where no documented instruction is. -/
def operandCountAt (m : OpcodeMap) (op : Byte) : Nat :=
  match m.formAt op with
  | some f => f.format.operandCount
  | none => 0

/-! ### The decoder -/

/-- Why a list of bytes holds no instruction. -/
inductive DecodeError where
  /-- There is no opcode byte. -/
  | noBytes
  /-- The opcode asks for `need` operand bytes and fewer follow. -/
  | truncated (op : Byte) (need : Nat)
  deriving DecidableEq, Repr

/-- Decodes the instruction at the head of a list of bytes and gives the bytes after it (R95 to R99). -/
def decodeWith (m : OpcodeMap) (bytes : List Byte) : Except DecodeError (Instr × List Byte) :=
  match bytes with
  | [] => .error .noBytes
  | op :: rest =>
    match operandCountAt m op, rest with
    | 0, _ => .ok (instrAt m op 0 0, rest)
    | 1, b1 :: rest' => .ok (instrAt m op b1 0, rest')
    | 2, b1 :: b2 :: rest' => .ok (instrAt m op b1 b2, rest')
    | n, _ => .error (.truncated op n)

/-- The decoder under the default map. -/
def decode (bytes : List Byte) : Except DecodeError (Instr × List Byte) := decodeWith defaultMap bytes

/-! ### The encoder -/

/-- The documented form of an instruction; none for an opcode byte that is no documented instruction. -/
def Instr.form : Instr → Option Form
  | .tab => some .tab
  | .tba => some .tba
  | .ldaaImm _ => some .ldaaImm
  | .ldabImm _ => some .ldabImm
  | .ldaaAbs _ => some .ldaaAbs
  | .ldabAbs _ => some .ldabAbs
  | .staaAbs _ => some .staaAbs
  | .stabAbs _ => some .stabAbs
  | .ldxAbs _ => some .ldxAbs
  | .ldyAbs _ => some .ldyAbs
  | .ldxImm _ => some .ldxImm
  | .ldyImm _ => some .ldyImm
  | .ldaaX _ => some .ldaaX
  | .ldaaY _ => some .ldaaY
  | .ldabX _ => some .ldabX
  | .ldabY _ => some .ldabY
  | .staaX _ => some .staaX
  | .staaY _ => some .staaY
  | .stabX _ => some .stabX
  | .stabY _ => some .stabY
  | .sumBa => some .sumBa
  | .sumAb => some .sumAb
  | .andBa => some .andBa
  | .andAb => some .andAb
  | .orBa => some .orBa
  | .orAb => some .orAb
  | .coma => some .coma
  | .comb => some .comb
  | .shfaL => some .shfaL
  | .shfaR => some .shfaR
  | .shfbL => some .shfbL
  | .shfbR => some .shfbR
  | .inx => some .inx
  | .iny => some .iny
  | .beq _ => some .beq
  | .bne _ => some .bne
  | .bn _ => some .bn
  | .bp _ => some .bp
  | .beq16 _ => some .beq16
  | .bne16 _ => some .bne16
  | .bn16 _ => some .bn16
  | .bp16 _ => some .bp16
  | .undocumented _ => none
  | .illegal _ => none

/-- The length in bytes of an instruction (R100, R101); an opcode byte that is no instruction is one byte. -/
def Instr.length (i : Instr) : Nat :=
  match i.form with
  | some f => f.length
  | none => 1

/-- The operand bytes of an instruction, in ascending address order, a 16-bit operand low byte first (R91, R97). -/
def Instr.operandBytes : Instr → List Byte
  | .ldaaImm v | .ldabImm v => [v]
  | .ldaaX d | .ldaaY d | .ldabX d | .ldabY d | .staaX d | .staaY d | .stabX d | .stabY d => [d]
  | .beq t | .bne t | .bn t | .bp t => [t]
  | .ldaaAbs w | .ldabAbs w | .staaAbs w | .stabAbs w | .ldxAbs w | .ldyAbs w => [lowByte w, highByte w]
  | .ldxImm w | .ldyImm w => [lowByte w, highByte w]
  | .beq16 w | .bne16 w | .bn16 w | .bp16 w => [lowByte w, highByte w]
  | .tab | .tba | .sumBa | .sumAb | .andBa | .andAb | .orBa | .orAb | .coma | .comb => []
  | .shfaL | .shfaR | .shfbL | .shfbR | .inx | .iny => []
  | .undocumented _ | .illegal _ => []

/-- The opcode byte of an instruction under a map (R92); the byte itself where it is no documented instruction. -/
def Instr.opcode (m : OpcodeMap) (i : Instr) : Byte :=
  match i with
  | .undocumented op | .illegal op => op
  | i => match i.form with
    | some f => m.codeOf f
    | none => 0

/-- The bytes of an instruction: the opcode byte, then the operand bytes (R90, R91). -/
def encodeWith (m : OpcodeMap) (i : Instr) : List Byte := i.opcode m :: i.operandBytes

/-- The encoder under the default map. -/
def encode (i : Instr) : List Byte := encodeWith defaultMap i

/-! ### The host's word -/

/-- The three bytes (the longest instruction) of a table word: the byte numbered 7..0 at the lowest address. -/
def tableBytes (nbits w : Nat) : List Byte :=
  let v := w % 2 ^ nbits
  [BitVec.ofNat 8 v, BitVec.ofNat 8 (v / 256), BitVec.ofNat 8 (v / 65536)]

/-- The instruction the decoder reads from a word of `spec/opcode_table.json`. -/
def decodeTableWord (nbits w : Nat) : Option Instr :=
  match decode (tableBytes nbits w) with
  | .ok (i, _) => some i
  | .error _ => none

end Sys2Proof
end

