-- ==== Sys2Proof/Machine/State.lean ====
section
/-! DEFINITION. The complete architectural state of the core (`10_state.md` R36), the reasons a step stops, and the
state after reset (`70_reset_and_hazards.md` R290 to R293). -/

namespace Sys2Proof.Machine

/-- The record of an error a step raised (`10_state.md` R34, `60_exceptions.md` R251). -/
inductive FaultRecord where
  /-- A read, a write, an opcode fetch or an operand fetch at `addr`, at or above 0x2000. -/
  | outOfBounds (addr : Word)
  /-- A store at `addr`, below 0x1000. -/
  | readOnlyViolation (addr : Word)
  /-- The opcode byte `opcode`, 0x32 to 0xFF, fetched at `pc`. -/
  | unknownInstruction (opcode : Byte) (pc : Word)
  deriving DecidableEq, Repr

/-- Why the machine makes no step. -/
inductive Fault where
  /-- Raised by `step` alone, when the fault state holds a record: "once it is set the core makes no further step"
  (R34, R252). Safe: nothing runs after an error (log 1, log 15). -/
  | stopped (record : FaultRecord)
  deriving DecidableEq, Repr

/-- Why an instruction has no meaning. -/
inductive Refusal where
  /-- Raised by an arm of `exec` whose instruction has no meaning in this model yet. Safe. No arm raises it. -/
  | notModelled (mnemonic : String)
  /-- Raised by `execUndocumented`: an opcode byte in range that OPCODE_MAP assigns to no documented instruction, to
  which the spec gives no meaning (`30_encoding.md` R94, D2). Safe: nothing can be proved past it (log 4). -/
  | undocumentedOpcode (op : Byte)
  deriving DecidableEq, Repr

/-- The MemoryImage (`20_memory.md` R50): the listed bytes, addresses strictly rising, no byte that an unlisted
address reads as. `Memory.wf` in `Machine/Ops.lean` is this canonical form. -/
abbrev Memory := List Host.Cell

/-- The core (`10_state.md` R36). -/
structure State where
  /-- Accumulator A (R21). -/
  a : Byte
  /-- Accumulator B (R22). -/
  b : Byte
  /-- Index register X (R23). -/
  x : Word
  /-- Index register Y (R24). -/
  y : Word
  /-- Program counter (R27): between steps, the address of the next opcode byte. -/
  pc : Word
  /-- The MemoryImage (R35). -/
  mem : Memory
  /-- The fault state (R34). -/
  fault : Option FaultRecord
  deriving DecidableEq, Repr

/-- The state when execution starts, for given INIT_REGS and loaded memory (R290 to R293). -/
def State.start (r : InitRegs) (m : Memory) : State :=
  { a := r.a0, b := r.b0, x := r.x0, y := r.y0, pc := 0, mem := m, fault := none }

/-- The state after reset: PC = 0x0000 (R290), no byte listed so that every byte is 0 (R292), fault none (R293), and
the registers of INIT_REGS at zero, DESIGN CHOICE (log 2). -/
def State.reset : State := State.start InitRegs.zero []

end Sys2Proof.Machine
end

