-- ==== Sys2Proof/Machine/Ops.lean ====
section
/-! DEFINITION. The operations every meaning is built from: bytes of memory, the core's checked accesses (`20_memory.md`
section 2), register writes, the PC advance, and raising an error (`60_exceptions.md` R252). -/

namespace Sys2Proof.Machine

/-- What an instruction or a step answers. -/
abbrev StepResult := Host.Outcome State Fault Refusal

/-! ### Memory as data -/

/-- What an address that is not listed reads as: 0 (`20_memory.md` R73, `70_reset_and_hazards.md` R292). -/
def unlistedByte : Byte := 0

/-- The byte at an address. -/
def Memory.get (m : Memory) (a : Nat) : Byte :=
  match m with
  | [] => unlistedByte
  | (k, v) :: rest => if k = a then v else Memory.get rest a

/-- Puts a byte at an address, keeping the canonical form. -/
def Memory.set (m : Memory) (a : Nat) (v : Byte) : Memory :=
  match m with
  | [] => if v = unlistedByte then [] else [(a, v)]
  | (k, w) :: rest =>
    if a < k then (if v = unlistedByte then (k, w) :: rest else (a, v) :: (k, w) :: rest)
    else if a = k then (if v = unlistedByte then rest else (a, v) :: rest)
    else (k, w) :: Memory.set rest a v

/-- The canonical form from address `lo` on: addresses strictly rising, backed, and no byte an unlisted address has. -/
def Memory.wfFrom (lo : Nat) (m : Memory) : Bool :=
  match m with
  | [] => true
  | (k, v) :: rest => decide (lo ≤ k) && decide (k < 0x2000) && decide (v ≠ unlistedByte) && Memory.wfFrom (k + 1) rest

/-- The canonical form of a memory, all of it in the 0x2000 backed bytes (`20_memory.md` R50). -/
def Memory.wf (m : Memory) : Bool := Memory.wfFrom 0 m

/-- The invariant of the machine's state: the memory is canonical and backed. -/
def State.Inv (s : State) : Prop := s.mem.wf = true

/-! ### The core's accesses -/

/-- `read(addr)` (R55). -/
def memRead (m : Memory) (addr : Word) : Except FaultRecord Byte :=
  if 0x2000 ≤ addr.toNat then .error (.outOfBounds addr) else .ok (m.get addr.toNat)

/-- `write(addr, val)` (R56, C1): the ROM test, then the bounds test, then the store. -/
def memWrite (m : Memory) (addr : Word) (v : Byte) : Except FaultRecord Memory :=
  if addr.toNat < 0x1000 then .error (.readOnlyViolation addr)
  else if 0x2000 ≤ addr.toNat then .error (.outOfBounds addr)
  else .ok (m.set addr.toNat v)

/-- A 16-bit data read whose first byte read sees `m1` and whose second sees `m2`: the low byte at `addr`, then the
high byte at `(addr + 1) mod 0x10000` (R58, D6, D15). -/
def memRead16From (m1 m2 : Memory) (addr : Word) : Except FaultRecord Word :=
  match memRead m1 addr with
  | .error r => .error r
  | .ok lo =>
    match memRead m2 (addr + 1) with
    | .error r => .error r
    | .ok hi => .ok (concat16 hi lo)

/-- A 16-bit data read (R58). -/
def memRead16 (m : Memory) (addr : Word) : Except FaultRecord Word := memRead16From m m addr

/-! ### Writes of the state's fields -/

def State.setA (s : State) (v : Byte) : State := { s with a := v }
def State.setB (s : State) (v : Byte) : State := { s with b := v }
def State.setX (s : State) (v : Word) : State := { s with x := v }
def State.setY (s : State) (v : Word) : State := { s with y := v }
def State.setPc (s : State) (v : Word) : State := { s with pc := v }
def State.setMem (s : State) (m : Memory) : State := { s with mem := m }

/-- Fault entry (`60_exceptions.md` R252): "the state before the step with `fault <- some(record)`". -/
def State.enterFault (s : State) (r : FaultRecord) : State := { s with fault := some r }

/-- `pc <- (PC + L) mod 0x10000` (`10_state.md` R28). -/
def State.advance (s : State) (len : Nat) : State := s.setPc (s.pc + BitVec.ofNat 16 len)

/-! ### How an instruction ends -/

/-- `raise E(info)`: the step ends in the fault state and nothing else of the state changes (R6, R252, R253). There is
no vector, no handler and no return (R257); the next `step` answers `Fault.stopped` (R34). -/
def raiseError (r : FaultRecord) (s : State) : StepResult := .next (s.enterFault r)

/-- An instruction of `len` bytes that puts `v` into a register by `put` and goes on. -/
def putAndAdvance {α : Type} (put : State → α → State) (v : α) (len : Nat) (s : State) : StepResult :=
  .next ((put s v).advance len)

/-- Ends an instruction that made an access: the error of the access, or the register write and the advance. -/
def putResult {α : Type} (put : State → α → State) (v : Except FaultRecord α) (len : Nat) (s : State) : StepResult :=
  match v with
  | .error r => raiseError r s
  | .ok v => putAndAdvance put v len s

/-- A load of one byte from `ea` (R61). -/
def loadByte (put : State → Byte → State) (ea : Word) (len : Nat) (s : State) : StepResult :=
  putResult put (memRead s.mem ea) len s

/-- A load of two bytes from `ea` and `ea + 1` (R58, R61), its two byte reads seeing `m1` and `m2`. -/
def loadWordFrom (m1 m2 : Memory) (put : State → Word → State) (ea : Word) (len : Nat) (s : State) : StepResult :=
  putResult put (memRead16From m1 m2 ea) len s

/-- A load of two bytes from `ea` and `ea + 1` (R58, R61). -/
def loadWord (put : State → Word → State) (ea : Word) (len : Nat) (s : State) : StepResult :=
  loadWordFrom s.mem s.mem put ea len s

/-- A store of one byte at `ea` (R57, R61). -/
def storeByte (v : Byte) (ea : Word) (len : Nat) (s : State) : StepResult :=
  putResult State.setMem (memWrite s.mem ea v) len s

/-- The numeric code the spec gives an error (R251, D30). No program can read it. -/
def FaultRecord.code : FaultRecord → Nat
  | .outOfBounds _ => 1
  | .readOnlyViolation _ => 2
  | .unknownInstruction _ _ => 3

/-! ### Placing bytes from outside the core -/

/-- Puts bytes at consecutive addresses (mod 0x10000) without the ROM check, as loading does (R71); an address that
no memory backs takes no byte. -/
def placeBytes (m : Memory) (addr : Word) (bytes : List Byte) : Memory :=
  match bytes with
  | [] => m
  | v :: rest => placeBytes (if addr.toNat < 0x2000 then m.set addr.toNat v else m) (addr + 1) rest

end Sys2Proof.Machine
end

