-- ==== Sys2Proof/Machine/Alu.lean ====
section
/-! DEFINITION. The ALU and the increments (`41_alu.md`): 8-bit unsigned results, no carry kept (R200), 16-bit
increments that wrap (R213, R214). Each instruction is one byte. -/

namespace Sys2Proof.Machine

/-- `(A + B) mod 256` (R200). -/
def aluSum (a b : Byte) : Byte := BitVec.ofNat 8 ((a.toNat + b.toNat) % 256)

/-- `A & B` (R200). -/
def aluAnd (a b : Byte) : Byte := a &&& b

/-- `A | B` (R200). -/
def aluOr (a b : Byte) : Byte := a ||| b

/-- `(~v) mod 256`, which equals 0xFF - v (R207). -/
def aluCom (v : Byte) : Byte := ~~~v

/-- `(v << 1) & 0xFF` (R209). DESIGN CHOICE of the spec: one bit (D5; log 7, unsafe). -/
def aluShl (v : Byte) : Byte := v <<< 1

/-- `v >> 1`, unsigned (R210). DESIGN CHOICE of the spec: one bit (D5; log 7, unsafe). -/
def aluShr (v : Byte) : Byte := v >>> 1

/-- R201: A <- (A + B) mod 256. The destination is a DESIGN CHOICE of the spec (D4; log 6, unsafe), here and in the
next five. -/
def execSumBa (s : State) : StepResult := putAndAdvance State.setA (aluSum s.a s.b) 1 s

/-- R202: B <- (A + B) mod 256. -/
def execSumAb (s : State) : StepResult := putAndAdvance State.setB (aluSum s.a s.b) 1 s

/-- R203: A <- A & B. -/
def execAndBa (s : State) : StepResult := putAndAdvance State.setA (aluAnd s.a s.b) 1 s

/-- R204: B <- A & B. -/
def execAndAb (s : State) : StepResult := putAndAdvance State.setB (aluAnd s.a s.b) 1 s

/-- R205: A <- A | B. -/
def execOrBa (s : State) : StepResult := putAndAdvance State.setA (aluOr s.a s.b) 1 s

/-- R206: B <- A | B. -/
def execOrAb (s : State) : StepResult := putAndAdvance State.setB (aluOr s.a s.b) 1 s

/-- R207: A <- (~A) mod 256. -/
def execComa (s : State) : StepResult := putAndAdvance State.setA (aluCom s.a) 1 s

/-- R208: B <- (~B) mod 256. -/
def execComb (s : State) : StepResult := putAndAdvance State.setB (aluCom s.b) 1 s

/-- R209: A <- (A << 1) & 0xFF. -/
def execShfaL (s : State) : StepResult := putAndAdvance State.setA (aluShl s.a) 1 s

/-- R210: A <- A >> 1. -/
def execShfaR (s : State) : StepResult := putAndAdvance State.setA (aluShr s.a) 1 s

/-- R211: B <- (B << 1) & 0xFF. -/
def execShfbL (s : State) : StepResult := putAndAdvance State.setB (aluShl s.b) 1 s

/-- R212: B <- B >> 1. -/
def execShfbR (s : State) : StepResult := putAndAdvance State.setB (aluShr s.b) 1 s

/-- R213: X <- (X + 1) mod 0x10000. -/
def execInx (s : State) : StepResult := putAndAdvance State.setX (s.x + 1) 1 s

/-- R214: Y <- (Y + 1) mod 0x10000. -/
def execIny (s : State) : StepResult := putAndAdvance State.setY (s.y + 1) 1 s

end Sys2Proof.Machine
end

