-- ==== Sys2Proof/Machine/Flags.lean ====
section
/-! DEFINITION. The core has no flags register (`10_state.md` R31). Its only conditions are the four functions of the
current A that a branch computes when it executes (R32). -/

namespace Sys2Proof.Machine

/-- `bit7(v)`: the most significant bit of a byte (`00_scope.md` section 5). -/
def bit7 (v : Byte) : Bool := v.getLsbD 7

/-- `EQ(A) = (A == 0)` (R32). -/
def condEq (a : Byte) : Bool := a == 0

/-- `NE(A) = (A != 0)` (R32). -/
def condNe (a : Byte) : Bool := a != 0

/-- `N(A) = (bit7(A) == 1)` (R32). -/
def condN (a : Byte) : Bool := bit7 a == true

/-- `P(A) = (bit7(A) == 0)` (R32); it holds for A = 0. -/
def condP (a : Byte) : Bool := bit7 a == false

end Sys2Proof.Machine
end

