-- ==== Sys2Proof/Machine/Operands.lean ====
section
/-! DEFINITION. The operand forms of `30_encoding.md` R98 that need a computation: the indexed effective address and the
branch targets. The immediate and absolute operands are the instruction's own numbers (R96, R97). -/

namespace Sys2Proof.Machine

/-- `zext_16(v)`: an 8-bit value as a 16-bit value, high byte zero (`00_scope.md` section 5). -/
def zext16 (v : Byte) : Word := v.setWidth 16

/-- The indexed effective address `(R + d) mod 0x10000`, checked only by the access that uses it (`40_data_movement.md`
R172, D7, C2). -/
def indexedEa (index : Word) (d : Byte) : Word := index + zext16 d

/-- The target of a taken 8-bit branch: `(PC & 0xFF00) | t8`, with PC the address of the opcode byte (`42_branches.md`
R231, D10). -/
def pageTarget (pc : Word) (t8 : Byte) : Word := (pc &&& 0xFF00) ||| zext16 t8

/-- An 8-bit branch: replace the low byte of PC, or PC + 2 (R231). -/
def branch8 (cond : Bool) (t8 : Byte) (s : State) : StepResult :=
  if cond then .next (s.setPc (pageTarget s.pc t8)) else .next (s.advance 2)

/-- A 16-bit branch: PC becomes the operand, or PC + 3 (R236). -/
def branch16 (cond : Bool) (t16 : Word) (s : State) : StepResult :=
  if cond then .next (s.setPc t16) else .next (s.advance 3)

end Sys2Proof.Machine
end

