-- ==== Sys2Proof/Machine/Branch.lean ====
section
/-! DEFINITION. The eight conditional branches (`42_branches.md`), on the value of A when the branch executes (R230). -/

namespace Sys2Proof.Machine

/-- R232: branch within the page if A == 0. -/
def execBeq (t : Byte) (s : State) : StepResult := branch8 (condEq s.a) t s

/-- R233: branch within the page if A != 0. -/
def execBne (t : Byte) (s : State) : StepResult := branch8 (condNe s.a) t s

/-- R234: branch within the page if bit 7 of A is 1. -/
def execBn (t : Byte) (s : State) : StepResult := branch8 (condN s.a) t s

/-- R235: branch within the page if bit 7 of A is 0. -/
def execBp (t : Byte) (s : State) : StepResult := branch8 (condP s.a) t s

/-- R237: branch anywhere if A == 0. -/
def execBeq16 (t : Word) (s : State) : StepResult := branch16 (condEq s.a) t s

/-- R238: branch anywhere if A != 0. -/
def execBne16 (t : Word) (s : State) : StepResult := branch16 (condNe s.a) t s

/-- R239: branch anywhere if bit 7 of A is 1. -/
def execBn16 (t : Word) (s : State) : StepResult := branch16 (condN s.a) t s

/-- R240: branch anywhere if bit 7 of A is 0. -/
def execBp16 (t : Word) (s : State) : StepResult := branch16 (condP s.a) t s

end Sys2Proof.Machine
end

