-- ==== Sys2Proof/Machine/LoadStore.lean ====
section
/-! DEFINITION. Absolute and indexed loads and stores (`40_data_movement.md` sections 3 and 5). -/

namespace Sys2Proof.Machine

/-! ### Absolute: the effective address is the operand itself, without masking -/

/-- R164: A <- MemRead(addr). -/
def execLdaaAbs (addr : Word) (s : State) : StepResult := loadByte State.setA addr 3 s

/-- R165: B <- MemRead(addr). -/
def execLdabAbs (addr : Word) (s : State) : StepResult := loadByte State.setB addr 3 s

/-- R166: MemWrite(addr, A). -/
def execStaaAbs (addr : Word) (s : State) : StepResult := storeByte s.a addr 3 s

/-- R167: MemWrite(addr, B). -/
def execStabAbs (addr : Word) (s : State) : StepResult := storeByte s.b addr 3 s

/-- R168: X <- the two bytes at addr and addr + 1, low byte first. -/
def execLdxAbs (addr : Word) (s : State) : StepResult := loadWord State.setX addr 3 s

/-- R169: Y <- the two bytes at addr and addr + 1, low byte first. -/
def execLdyAbs (addr : Word) (s : State) : StepResult := loadWord State.setY addr 3 s

/-! ### Indexed: the effective address is (index + d) mod 0x10000, then checked (R172) -/

/-- R173: A <- MemRead(X + d). -/
def execLdaaX (d : Byte) (s : State) : StepResult := loadByte State.setA (indexedEa s.x d) 2 s

/-- R174: A <- MemRead(Y + d). -/
def execLdaaY (d : Byte) (s : State) : StepResult := loadByte State.setA (indexedEa s.y d) 2 s

/-- R175: B <- MemRead(X + d). -/
def execLdabX (d : Byte) (s : State) : StepResult := loadByte State.setB (indexedEa s.x d) 2 s

/-- R176: B <- MemRead(Y + d). -/
def execLdabY (d : Byte) (s : State) : StepResult := loadByte State.setB (indexedEa s.y d) 2 s

/-- R177: MemWrite(X + d, A). -/
def execStaaX (d : Byte) (s : State) : StepResult := storeByte s.a (indexedEa s.x d) 2 s

/-- R178: MemWrite(Y + d, A). -/
def execStaaY (d : Byte) (s : State) : StepResult := storeByte s.a (indexedEa s.y d) 2 s

/-- R179: MemWrite(X + d, B). -/
def execStabX (d : Byte) (s : State) : StepResult := storeByte s.b (indexedEa s.x d) 2 s

/-- R180: MemWrite(Y + d, B). -/
def execStabY (d : Byte) (s : State) : StepResult := storeByte s.b (indexedEa s.y d) 2 s

end Sys2Proof.Machine
end

