-- ==== Sys2Proof/Machine/Transfer.lean ====
section
/-! DEFINITION. Register transfer, immediate load and immediate 16 (`40_data_movement.md` sections 1, 2 and 4). -/

namespace Sys2Proof.Machine

/-- R160: B <- A. DESIGN CHOICE of the spec (D3, from the Motorola meaning of TAB; log 5, unsafe). -/
def execTab (s : State) : StepResult := putAndAdvance State.setB s.a 1 s

/-- R161: A <- B. DESIGN CHOICE of the spec (D3; log 5, unsafe). -/
def execTba (s : State) : StepResult := putAndAdvance State.setA s.b 1 s

/-- R162: A <- v. -/
def execLdaaImm (v : Byte) (s : State) : StepResult := putAndAdvance State.setA v 2 s

/-- R163: B <- v. -/
def execLdabImm (v : Byte) (s : State) : StepResult := putAndAdvance State.setB v 2 s

/-- R170: X <- v. -/
def execLdxImm (v : Word) (s : State) : StepResult := putAndAdvance State.setX v 3 s

/-- R171: Y <- v. -/
def execLdyImm (v : Word) (s : State) : StepResult := putAndAdvance State.setY v 3 s

end Sys2Proof.Machine
end

