-- ==== Sys2Proof/Machine/Undefined.lean ====
section
/-! DEFINITION. The opcode bytes that are no documented instruction (`30_encoding.md` R93, R94). -/

namespace Sys2Proof.Machine

/-- R94: a code in range that OPCODE_MAP assigns to no documented instruction is refused: "the model gives it no
meaning"; "it is neither a fault nor a value" (D2; log 4, safe). -/
def execUndocumented (op : Byte) (_s : State) : StepResult := .refused (.undocumentedOpcode op)

/-- R93: a code of 0x32 to 0xFF raises `UnknownInstruction(opcode, PC)`, with PC the address of the opcode byte. -/
def execIllegal (op : Byte) (s : State) : StepResult := raiseError (.unknownInstruction op s.pc) s

end Sys2Proof.Machine
end

