-- ==== Sys2Proof/Machine/Dispatch.lean ====
section
/-! DEFINITION. The dispatch of `30_encoding.md` R95: one arm per instruction, one meaning per arm. -/

namespace Sys2Proof.Machine

def exec (i : Instr) (s : State) : Host.Outcome State Fault Refusal :=
  match i with
  | .tab => Sys2Proof.Machine.execTab s
  | .tba => Sys2Proof.Machine.execTba s
  | .ldaaImm v => Sys2Proof.Machine.execLdaaImm v s
  | .ldabImm v => Sys2Proof.Machine.execLdabImm v s
  | .ldaaAbs addr => Sys2Proof.Machine.execLdaaAbs addr s
  | .ldabAbs addr => Sys2Proof.Machine.execLdabAbs addr s
  | .staaAbs addr => Sys2Proof.Machine.execStaaAbs addr s
  | .stabAbs addr => Sys2Proof.Machine.execStabAbs addr s
  | .ldxAbs addr => Sys2Proof.Machine.execLdxAbs addr s
  | .ldyAbs addr => Sys2Proof.Machine.execLdyAbs addr s
  | .ldxImm v => Sys2Proof.Machine.execLdxImm v s
  | .ldyImm v => Sys2Proof.Machine.execLdyImm v s
  | .ldaaX d => Sys2Proof.Machine.execLdaaX d s
  | .ldaaY d => Sys2Proof.Machine.execLdaaY d s
  | .ldabX d => Sys2Proof.Machine.execLdabX d s
  | .ldabY d => Sys2Proof.Machine.execLdabY d s
  | .staaX d => Sys2Proof.Machine.execStaaX d s
  | .staaY d => Sys2Proof.Machine.execStaaY d s
  | .stabX d => Sys2Proof.Machine.execStabX d s
  | .stabY d => Sys2Proof.Machine.execStabY d s
  | .sumBa => Sys2Proof.Machine.execSumBa s
  | .sumAb => Sys2Proof.Machine.execSumAb s
  | .andBa => Sys2Proof.Machine.execAndBa s
  | .andAb => Sys2Proof.Machine.execAndAb s
  | .orBa => Sys2Proof.Machine.execOrBa s
  | .orAb => Sys2Proof.Machine.execOrAb s
  | .coma => Sys2Proof.Machine.execComa s
  | .comb => Sys2Proof.Machine.execComb s
  | .shfaL => Sys2Proof.Machine.execShfaL s
  | .shfaR => Sys2Proof.Machine.execShfaR s
  | .shfbL => Sys2Proof.Machine.execShfbL s
  | .shfbR => Sys2Proof.Machine.execShfbR s
  | .inx => Sys2Proof.Machine.execInx s
  | .iny => Sys2Proof.Machine.execIny s
  | .beq t => Sys2Proof.Machine.execBeq t s
  | .bne t => Sys2Proof.Machine.execBne t s
  | .bn t => Sys2Proof.Machine.execBn t s
  | .bp t => Sys2Proof.Machine.execBp t s
  | .beq16 t => Sys2Proof.Machine.execBeq16 t s
  | .bne16 t => Sys2Proof.Machine.execBne16 t s
  | .bn16 t => Sys2Proof.Machine.execBn16 t s
  | .bp16 t => Sys2Proof.Machine.execBp16 t s
  | .undocumented op => Sys2Proof.Machine.execUndocumented op s
  | .illegal op => Sys2Proof.Machine.execIllegal op s

end Sys2Proof.Machine
end

