-- ==== Sys2Proof/Machine/Fetch.lean ====
section
/-! DEFINITION. Fetch and decode (`30_encoding.md` R95 to R97, `20_memory.md` R61): the opcode byte at PC, then the
operand bytes at PC+1 and PC+2, each by one byte read, in ascending order (`60_exceptions.md` R255, D15). -/

namespace Sys2Proof.Machine

/-- Fetches and decodes the instruction at `pc`, the opcode read seeing `m0`, the first operand read `m1` and the
second `m2`. An opcode byte that is no documented instruction has no operand byte (R93, R94, R255). The operand bytes of
a branch are fetched whether or not it is taken (D33). -/
def fetchFrom (map : OpcodeMap) (m0 m1 m2 : Memory) (pc : Word) : Except FaultRecord Instr :=
  match memRead m0 pc with
  | .error r => .error r
  | .ok op =>
    match operandCountAt map op with
    | 0 => .ok (instrAt map op 0 0)
    | 1 =>
      match memRead m1 (pc + 1) with
      | .error r => .error r
      | .ok b1 => .ok (instrAt map op b1 0)
    | _ =>
      match memRead m1 (pc + 1) with
      | .error r => .error r
      | .ok b1 =>
        match memRead m2 (pc + 2) with
        | .error r => .error r
        | .ok b2 => .ok (instrAt map op b1 b2)

/-- Fetches and decodes the instruction at PC (R95). -/
def fetchInstr (map : OpcodeMap) (s : State) : Except FaultRecord Instr := fetchFrom map s.mem s.mem s.mem s.pc

end Sys2Proof.Machine
end

