-- ==== Sys2Proof/Machine/Step.lean ====
section
/-! DEFINITION. One step of the core (`30_encoding.md` R95): no step once the fault state is set (`10_state.md` R34),
else fetch, decode and execute one instruction; an error of the fetch is raised like any other (`60_exceptions.md` R252). -/

namespace Sys2Proof.Machine

/-- One step under an opcode map. -/
def stepWith (map : OpcodeMap) (s : State) : Host.Outcome State Fault Refusal :=
  match s.fault with
  | some r => .fault (.stopped r)
  | none =>
    match fetchInstr map s with
    | .error r => raiseError r s
    | .ok i => exec i s

/-- One step under the default opcode map. -/
def step (s : State) : Host.Outcome State Fault Refusal := stepWith defaultMap s

/-- The state with an instruction's bytes stored where the next step fetches: at PC, PC+1 and PC+2, without the ROM
check, as a load from outside the machine does (R71; log 23). -/
def State.withFetchWord (s : State) (nbits w : Nat) : State :=
  s.setMem (placeBytes s.mem s.pc (tableBytes nbits w))

end Sys2Proof.Machine
end

