-- ==== Sys2Proof/Machine/Text.lean ====
section
/-! DEFINITION. Text as lists of characters: what the image format (`20_memory.md` R72) and the assembler (`30_encoding.md`
section 4) need of numbers, blanks and lines. -/

namespace Sys2Proof.Machine

/-- A text, or one line of it. -/
abbrev Text := List Char

/-! ### Numbers -/

/-- The digit character of a value below 16, upper case (D31). -/
def digitChar (d : Nat) : Char :=
  if d < 10 then Char.ofNat (48 + d) else Char.ofNat (55 + d)

/-- The value of a digit character of base 16 or less, either case. -/
def digitValue (c : Char) : Option Nat :=
  let n := c.toNat
  if 48 ≤ n ∧ n ≤ 57 then some (n - 48)
  else if 65 ≤ n ∧ n ≤ 70 then some (n - 55)
  else if 97 ≤ n ∧ n ≤ 102 then some (n - 87)
  else none

/-- The digits of `n` in a base, without leading zeros, with enough `fuel` (`n` is enough). -/
def digitsText (base : Nat) : Nat → Nat → Text
  | 0, n => [digitChar (n % base)]
  | fuel + 1, n => if n < base then [digitChar n] else digitsText base fuel (n / base) ++ [digitChar (n % base)]

/-- A number in hexadecimal, upper case, no leading zeros (D31). -/
def hexText (n : Nat) : Text := digitsText 16 n n

/-- A number in decimal (R115: "decimal-string addresses"). -/
def decText (n : Nat) : Text := digitsText 10 n n

/-- Reads digits of a base after the value `acc`. -/
def parseDigitsFrom (base acc : Nat) : Text → Option Nat
  | [] => some acc
  | c :: cs =>
    match digitValue c with
    | none => none
    | some d => if d < base then parseDigitsFrom base (acc * base + d) cs else none

/-- Reads a number of one or more digits of a base. -/
def parseDigits (base : Nat) (t : Text) : Option Nat :=
  if t = [] then none else parseDigitsFrom base 0 t

/-! ### Blanks, separators and lines -/

/-- Without the characters in front that `p` holds of. -/
def trimLeft (p : Char → Bool) (t : Text) : Text := t.dropWhile p

/-- Without the characters at the end that `p` holds of. -/
def trimRight (p : Char → Bool) (t : Text) : Text := (t.reverse.dropWhile p).reverse

/-- Without the characters at both ends that `p` holds of. -/
def trimBoth (p : Char → Bool) (t : Text) : Text := trimRight p (trimLeft p t)

/-- The texts before and after the first character `c`. -/
def splitFirst (c : Char) : Text → Option (Text × Text)
  | [] => none
  | d :: rest => if d = c then some ([], rest) else (splitFirst c rest).map (fun q => (d :: q.1, q.2))

/-- The pieces between the characters `c`. -/
def splitAll (c : Char) : Text → List Text
  | [] => [[]]
  | d :: rest =>
    if d = c then [] :: splitAll c rest
    else match splitAll c rest with
      | [] => [[d]]
      | piece :: pieces => (d :: piece) :: pieces

/-- The lines of a text. DESIGN CHOICE (log 30): lines end at a line feed alone, since R72 and D31 name no line
terminator; a carriage return is a character of its line. -/
def splitLines (t : Text) : List Text := splitAll '\n' t

/-- The text of a list of lines, each ended, the last one too. DESIGN CHOICE (log 30): the terminator is one line feed,
since R72, R124 and D31 name none. -/
def joinLines (ls : List Text) : Text := ls.flatMap (· ++ ['\n'])

/-- The text without a last character `c`, if it ends in one. -/
def dropLast? (c : Char) (t : Text) : Option Text :=
  match t.reverse with
  | [] => none
  | d :: rest => if d = c then some rest.reverse else none

end Sys2Proof.Machine
end

