-- ==== Sys2Proof/Machine/Image.lean ====
section
/-! DEFINITION. Memory images: the text format, its reader and the loading of both images (`20_memory.md` R71 to R73,
D13, D31), and its writer (`30_encoding.md` R124, R125). -/

namespace Sys2Proof.Machine

/-- The error of loading (R73, `60_exceptions.md` R250): execution does not start. -/
inductive LoadError where
  | malformedFile
  deriving DecidableEq, Repr

/-- The four header lines and the line that begins the body (R72). -/
def imageHeader : List Text :=
  ["DEPTH=4096;".toList, "WIDTH=8;".toList, "ADDRESS_RADIX=HEX;".toList, "DATA_RADIX=HEX;".toList, "CONTENT BEGIN".toList]

/-- The line that ends the body (R72). -/
def imageEnd : Text := "END;".toList

/-- A body line: every image address `first` to `last` inclusive holds `value` (R72). -/
structure Segment where
  first : Nat
  last : Nat
  value : Byte
  deriving DecidableEq, Repr

/-! ### Reading -/

/-- The blanks allowed around `:` and inside `[..]` (D31): spaces. -/
def isSpace (c : Char) : Bool := c == ' '

/-- The two texts around the first `..`. -/
def splitDots : Text → Option (Text × Text)
  | [] => none
  | c :: rest =>
    match c, rest with
    | '.', '.' :: after => some ([], after)
    | _, _ => (splitDots rest).map (fun q => (c :: q.1, q.2))

/-- A hexadecimal number, either case, any leading zeros (D31). -/
def parseHex (t : Text) : Option Nat := parseDigits 16 t

/-- The address part of a body line: `ADDR` or `[START..END]` (R72). -/
def parseRange (t : Text) : Option (Nat × Nat) :=
  match t with
  | '[' :: inside =>
    match dropLast? ']' inside with
    | none => none
    | some inside =>
      match splitDots inside with
      | none => none
      | some (l, r) =>
        match parseHex (trimBoth isSpace l), parseHex (trimBoth isSpace r) with
        | some first, some last => some (first, last)
        | _, _ => none
  | t =>
    match parseHex t with
    | some addr => some (addr, addr)
    | none => none

/-- A body line, `ADDR : BYTE;` or `[START..END] : BYTE;` (R72), inside the image (D31: an address above 0xFFF is
malformed) and with a byte below 0x100 and START not above END (DESIGN CHOICE, log 22). -/
def parseSegment (line : Text) : Option Segment :=
  match dropLast? ';' line with
  | none => none
  | some body =>
    match splitFirst ':' body with
    | none => none
    | some (l, r) =>
      match parseRange (trimRight isSpace l), parseHex (trimLeft isSpace r) with
      | some (first, last), some v =>
        if first ≤ last ∧ last ≤ 0xFFF ∧ v ≤ 0xFF then some { first, last, value := BitVec.ofNat 8 v } else none
      | _, _ => none

/-- The body lines and `END;`, after which only the end of its line may stand (DESIGN CHOICE, log 22). -/
def parseBody : List Text → Option (List Segment)
  | [] => none
  | line :: rest =>
    if line = imageEnd then (if rest = [] ∨ rest = [[]] then some [] else none)
    else match parseSegment line with
      | none => none
      | some seg => (parseBody rest).map (seg :: ·)

/-- The two segments name no common address. -/
def Segment.disjoint (p q : Segment) : Bool := decide (p.last < q.first) || decide (q.last < p.first)

/-- No address is named a second time (D31). -/
def segmentsDisjoint : List Segment → Bool
  | [] => true
  | seg :: rest => rest.all (seg.disjoint ·) && segmentsDisjoint rest

/-- Reads an image file (R72, D31). -/
def parseImage (t : Text) : Except LoadError (List Segment) :=
  match splitLines t with
  | l1 :: l2 :: l3 :: l4 :: l5 :: rest =>
    if [l1, l2, l3, l4, l5] = imageHeader then
      match parseBody rest with
      | some segs => if segmentsDisjoint segs then .ok segs else .error .malformedFile
      | none => .error .malformedFile
    else .error .malformedFile
  | _ => .error .malformedFile

/-! ### Loading -/

/-- Sets `count` bytes from an address, without the ROM check (R71). -/
def fillBytes (m : Memory) (addr : Nat) : Nat → Byte → Memory
  | 0, _ => m
  | count + 1, v => fillBytes (m.set addr v) (addr + 1) count v

/-- Sets the bytes each segment names, at image address + image base (R73). -/
def loadSegments (base : Nat) (segs : List Segment) (m : Memory) : Memory :=
  segs.foldl (fun m seg => fillBytes m (base + seg.first) (seg.last + 1 - seg.first) seg.value) m

/-- An image, or the image with no body lines where there is none (D13). -/
def parseOptImage : Option Text → Except LoadError (List Segment)
  | none => .ok []
  | some t => parseImage t

/-- The MemoryImage of a ROM image at 0x0000 and a RAM image at 0x1000; every other byte is 0 (R71, R73, R292). -/
def loadImages (rom ram : Option Text) : Except LoadError Memory :=
  match parseOptImage rom with
  | .error e => .error e
  | .ok romSegs =>
    match parseOptImage ram with
    | .error e => .error e
    | .ok ramSegs => .ok (loadSegments 0x1000 ramSegs (loadSegments 0x0000 romSegs []))

/-! ### Writing -/

/-- Written bytes by address, addresses strictly rising. A written byte that is 0 is listed: it is not the same as an
unwritten one (R125, `95_test_vectors.md` section 4). -/
abbrev Sparse := List (Nat × Byte)

/-- The form of a sparse memory: addresses strictly rising, from `lo` on and below `hi`. -/
def Sparse.within (lo hi : Nat) (m : Sparse) : Bool :=
  match m with
  | [] => true
  | (a, _) :: rest => decide (lo ≤ a) && decide (a < hi) && Sparse.within (a + 1) hi rest

/-- The byte written at an address. -/
def Sparse.find (m : Sparse) (a : Nat) : Option Byte :=
  match m with
  | [] => none
  | (k, v) :: rest => if k = a then some v else Sparse.find rest a

/-- The line of one written byte, `ADDR : BYTE;` (R125, D31). -/
def byteLine (addr : Nat) (v : Byte) : Text := hexText addr ++ " : ".toList ++ hexText v.toNat ++ [';']

/-- The line of a run of unwritten addresses, `[START..END] : 0;` (R125). -/
def fillLine (first last : Nat) : Text := '[' :: hexText first ++ "..".toList ++ hexText last ++ "] : 0;".toList

/-- The body from image address `cursor` to 0xFFF, ascending, no gap and no overlap (R125). -/
def bodyLines (cursor : Nat) : Sparse → List Text
  | [] => if cursor ≤ 0xFFF then [fillLine cursor 0xFFF] else []
  | (a, v) :: rest =>
    (if cursor < a then [fillLine cursor (a - 1)] else []) ++ byteLine a v :: bodyLines (a + 1) rest

/-- The text of an image (R72, R125, D31). -/
def renderImage (m : Sparse) : Text := joinLines (imageHeader ++ bodyLines 0 m ++ [imageEnd])

/-- The part of a sparse memory that goes to the ROM image (R124). -/
def Sparse.rom (m : Sparse) : Sparse := m.filter (fun c => decide (c.1 < 0x1000))

/-- The part that goes to the RAM image, rebased to 0x0000 (R124). -/
def Sparse.ram (m : Sparse) : Sparse :=
  (m.filter (fun c => decide (0x1000 ≤ c.1))).map (fun c => (c.1 - 0x1000, c.2))

/-- The ROM image's text. -/
def romImage (m : Sparse) : Text := renderImage m.rom

/-- The RAM image's text. -/
def ramImage (m : Sparse) : Text := renderImage m.ram

end Sys2Proof.Machine
end

