-- ==== Sys2Proof/Machine/Assembler.lean ====
section
/-! DEFINITION. The encoder of `30_encoding.md` sections 4 and 5: source lines to bytes, in three passes. Errors abort
assembly entirely (R121): a result is either the one fatal error or the whole output. What the spec leaves open of the
source's blanks and line numbers is in log 21 (DESIGN CHOICE). -/

namespace Sys2Proof.Machine

/-! ### Errors and lines -/

/-- The kinds of fatal error (R121, D22, D26, D27, D35). -/
inductive AsmErrorKind where
  | unknownInstruction
  | duplicateDefinition
  | outOfBounds
  deriving DecidableEq, Repr

/-- A fatal error: "source line number and text" (R121). -/
structure AsmError where
  kind : AsmErrorKind
  line : Nat
  text : Text
  deriving DecidableEq, Repr

/-- A source line: its number from 1, its text as written, and its text as preprocessed so far. -/
structure SrcLine where
  num : Nat
  raw : Text
  text : Text
  deriving DecidableEq, Repr

/-- The error of a kind at a line. -/
def SrcLine.error (l : SrcLine) (k : AsmErrorKind) : AsmError := { kind := k, line := l.num, text := l.raw }

/-! ### Names, directives, literals -/

/-- Whitespace. -/
def isBlank (c : Char) : Bool := c.isWhitespace

/-- Lower case (R111 step 4). -/
def lower (t : Text) : Text := t.map Char.toLower

/-- The directives (R110, R116). -/
inductive Directive where
  | org | equ | dcb | dsb | db
  deriving DecidableEq, Repr

/-- The directive of a keyword. -/
def directiveOf (word : Text) : Option Directive :=
  if word = "org".toList then some .org
  else if word = "equ".toList then some .equ
  else if word = "dc.b".toList then some .dcb
  else if word = "ds.b".toList then some .dsb
  else if word = "db".toList then some .db
  else none

/-- A lower-case letter or `_`. -/
def isNameStart (c : Char) : Bool := (decide ('a' ≤ c) && decide (c ≤ 'z')) || c == '_'

/-- A character of a name after the first. -/
def isNameChar (c : Char) : Bool := isNameStart c || (decide ('0' ≤ c) && decide (c ≤ '9')) || c == '.'

/-- A name, lower case: `[a-z_][a-z0-9_.]*` and no directive keyword (D36). -/
def isName (t : Text) : Bool :=
  match t with
  | [] => false
  | c :: cs => isNameStart c && cs.all isNameChar && (directiveOf t).isNone

/-- A numeric literal (R112); none for any other token (D22). -/
def parseLiteral (t : Text) : Option Nat :=
  match t with
  | '$' :: ds => parseDigits 16 ds
  | '%' :: ds => parseDigits 2 ds
  | ds => parseDigits 10 ds

/-! ### Preprocessing (R111) -/

/-- Step 1: without the comment from `;` or `@` to the end of the line. -/
def stripComment (t : Text) : Text := t.takeWhile (fun c => c != ';' && c != '@')

/-- The text before the first `:` and the text after it, blanks in front removed. -/
def splitLabel (t : Text) : Option (Text × Text) := splitFirst ':' (trimLeft isBlank t)

/-- Whether a line is exactly `label:` (R111 step 3), with blanks allowed around it; a text before the colon that is no
name makes no label line (DESIGN CHOICE, log 21). -/
def isLabelOnly (t : Text) : Bool :=
  match splitLabel (lower t) with
  | some (name, rest) => isName name && rest.all isBlank
  | none => false

/-- Step 3: a line that is exactly `label:` is put in front of the following line; a label on the last line is fatal
(D35). `carry` is the label line waiting for its following line. DESIGN CHOICE (log 31): the test is made on the merged
text, so of two label lines in succession the second is not merged onward: `a:` then `b:` stay as the line `a:b:`, which
matches no pattern and is fatal at the second one's line. -/
def mergeLabels (carry : Option SrcLine) : List SrcLine → Except AsmError (List SrcLine)
  | [] =>
    match carry with
    | none => .ok []
    | some l => .error (l.error .unknownInstruction)
  | l :: rest =>
    let merged := match carry with
      | none => l
      | some c => { l with text := c.text ++ l.text }
    if isLabelOnly merged.text then mergeLabels (some merged) rest
    else match mergeLabels none rest with
      | .error e => .error e
      | .ok ls => .ok (merged :: ls)

/-- Numbers the source lines from `n`. -/
def numberLines (n : Nat) : List Text → List SrcLine
  | [] => []
  | t :: rest => { num := n, raw := t, text := stripComment t } :: numberLines (n + 1) rest

/-- The four steps of R111 in order: comments, blank lines (D35), label lines, lower case. -/
def preprocess (src : List Text) : Except AsmError (List SrcLine) :=
  let kept := (numberLines 1 src).filter (fun l => !l.text.all isBlank)
  match mergeLabels none kept with
  | .error e => .error e
  | .ok ls => .ok (ls.map (fun l => { l with text := lower l.text }))

/-! ### The parts of a line (R110, R113, R114) -/

/-- The shapes an operand can have (R113). -/
inductive Shape where
  | absent | immediate | plain | indexedX | indexedY
  deriving DecidableEq, Repr

/-- A line's optional label (as written, checked when it is bound), its keyword and its operand text. -/
structure Parts where
  label : Option Text
  word : Text
  operand : Text
  deriving DecidableEq, Repr

/-- Takes a preprocessed line apart: "optional leading `label:`; then" a keyword and its operand (R110). -/
def partsOf (t : Text) : Parts :=
  let (label, rest) := match splitLabel t with
    | some (name, rest) => (some name, rest)
    | none => (none, t)
  let body := trimLeft isBlank rest
  { label, word := body.takeWhile (fun c => !isBlank c), operand := trimBoth isBlank (body.dropWhile (fun c => !isBlank c)) }

/-- The shape of an operand and its token, tried in the fixed order of R114 (D24) after the directive keyword: indexed,
immediate, any other operand, no operand. -/
def shapeOf (operand : Text) : Shape × Text :=
  match operand.reverse with
  | 'x' :: ',' :: front => (.indexedX, trimBoth isBlank front.reverse)
  | 'y' :: ',' :: front => (.indexedY, trimBoth isBlank front.reverse)
  | _ =>
    match operand with
    | '#' :: token => (.immediate, trimBoth isBlank token)
    | [] => (.absent, [])
    | token => (.plain, token)

/-- The mnemonic word of a documented instruction (R92, R113). -/
def formWord : Form → String
  | .tab => "tab"
  | .tba => "tba"
  | .ldaaImm | .ldaaAbs | .ldaaX | .ldaaY => "ldaa"
  | .ldabImm | .ldabAbs | .ldabX | .ldabY => "ldab"
  | .staaAbs | .staaX | .staaY => "staa"
  | .stabAbs | .stabX | .stabY => "stab"
  | .ldxAbs | .ldxImm => "ldx"
  | .ldyAbs | .ldyImm => "ldy"
  | .sumBa => "sum_ba"
  | .sumAb => "sum_ab"
  | .andBa => "and_ba"
  | .andAb => "and_ab"
  | .orBa => "or_ba"
  | .orAb => "or_ab"
  | .coma => "coma"
  | .comb => "comb"
  | .shfaL => "shfa_l"
  | .shfaR => "shfa_r"
  | .shfbL => "shfb_l"
  | .shfbR => "shfb_r"
  | .inx => "inx"
  | .iny => "iny"
  | .beq => "beq"
  | .bne => "bne"
  | .bn => "bn"
  | .bp => "bp"
  | .beq16 => "beq16"
  | .bne16 => "bne16"
  | .bn16 => "bn16"
  | .bp16 => "bp16"

/-- The operand shape of a documented instruction (R113). -/
def formShape : Form → Shape
  | .tab | .tba | .sumBa | .sumAb | .andBa | .andAb | .orBa | .orAb | .coma | .comb => .absent
  | .shfaL | .shfaR | .shfbL | .shfbR | .inx | .iny => .absent
  | .ldaaImm | .ldabImm | .ldxImm | .ldyImm => .immediate
  | .ldaaAbs | .ldabAbs | .staaAbs | .stabAbs | .ldxAbs | .ldyAbs => .plain
  | .ldaaX | .ldabX | .staaX | .stabX => .indexedX
  | .ldaaY | .ldabY | .staaY | .stabY => .indexedY
  | .beq | .bne | .bn | .bp | .beq16 | .bne16 | .bn16 | .bp16 => .plain

/-- The instruction form of a mnemonic word and an operand shape; none matches any other combination (R113). -/
def formOf (word : Text) (shape : Shape) : Option Form :=
  allForms.find? (fun f => decide ((formWord f).toList = word) && decide (formShape f = shape))

/-! ### The name table (R115) -/

/-- A bound name: its raw text, and whether it is a label or an `equ` binding. -/
structure Binding where
  name : Text
  value : Text
  isLabel : Bool
  deriving DecidableEq, Repr

/-- The text a name is bound to. -/
def lookupName (table : List Binding) (name : Text) : Option Text :=
  (table.find? (fun b => decide (b.name = name))).map (·.value)

/-- Binds a name; a text that is no name is fatal (D36), and so is a name bound twice (D27). -/
def bindName (l : SrcLine) (table : List Binding) (b : Binding) : Except AsmError (List Binding) :=
  if !isName b.name then .error (l.error .unknownInstruction)
  else if (lookupName table b.name).isSome then .error (l.error .duplicateDefinition)
  else .ok (table ++ [b])

/-- Binds a line's label, if it has one, to an address (R115). -/
def bindLabel (l : SrcLine) (table : List Binding) (label : Option Text) (addr : Nat) : Except AsmError (List Binding) :=
  match label with
  | none => .ok table
  | some name => bindName l table { name, value := decText addr, isLabel := true }

/-- The value of an operand token: the text a known name is bound to, or the token itself, read as a numeric literal and
not looked up again (R118); anything else is fatal (D22, D32). -/
def resolve (l : SrcLine) (table : List Binding) (token : Text) : Except AsmError Nat :=
  let t := (lookupName table token).getD token
  match parseLiteral t with
  | some n => .ok n
  | none => .error (l.error .unknownInstruction)

/-! ### Writing bytes -/

/-- Writes a byte at an address that is not written yet. -/
def Sparse.put (m : Sparse) (a : Nat) (v : Byte) : Option Sparse :=
  match m with
  | [] => some [(a, v)]
  | (k, w) :: rest =>
    if a < k then some ((a, v) :: (k, w) :: rest)
    else if a = k then none
    else (Sparse.put rest a v).map ((k, w) :: ·)

/-- Writes bytes at successive addresses; an address at or above 0x2000 is fatal (D26), and so is one already written
(R116, R120, D25). -/
def emitBytes (l : SrcLine) (m : Sparse) (addr : Nat) : List Byte → Except AsmError Sparse
  | [] => .ok m
  | v :: rest =>
    if 0x2000 ≤ addr then .error (l.error .outOfBounds)
    else match m.put addr v with
      | none => .error (l.error .duplicateDefinition)
      | some m' => emitBytes l m' (addr + 1) rest

/-! ### Pass 1: directives (R116) -/

/-- What the passes carry: the running address, the written bytes, the name table, and the address of each instruction
line with its source line number and text (R123). -/
structure AsmState where
  cursor : Nat
  memory : Sparse
  names : List Binding
  lines : List (Nat × Nat × Text)
  deriving DecidableEq, Repr

/-- The values of the operands of `dc.b` (R116, D32), each in a 1-byte field (R119, D21). -/
def resolveBytes (l : SrcLine) (table : List Binding) : List Text → Except AsmError (List Byte)
  | [] => .ok []
  | t :: rest =>
    match resolve l table (trimBoth isBlank t) with
    | .error e => .error e
    | .ok n =>
      match resolveBytes l table rest with
      | .error e => .error e
      | .ok vs => .ok (BitVec.ofNat 8 (n % 256) :: vs)

/-- Writes the bytes of a data directive, binds the label to the starting address and advances the cursor by their
count (R116). DESIGN CHOICE (log 32): D26 is applied to bytes written, so a directive that writes none (`ds.b 0`) is not
fatal with the cursor at 0x2000, and its label is bound to 8192. -/
def placeData (l : SrcLine) (label : Option Text) (st : AsmState) (bytes : List Byte) : Except AsmError AsmState :=
  match emitBytes l st.memory st.cursor bytes with
  | .error e => .error e
  | .ok memory =>
    match bindLabel l st.names label st.cursor with
    | .error e => .error e
    | .ok names => .ok { st with memory, names, cursor := st.cursor + bytes.length }

/-- `org addr`: the cursor becomes `addr`, and so does a label (R116); an address at or above 0x2000 is fatal (D26). -/
def runOrg (l : SrcLine) (p : Parts) (st : AsmState) : Except AsmError AsmState :=
  match resolve l st.names p.operand with
  | .error e => .error e
  | .ok addr =>
    if 0x2000 ≤ addr then .error (l.error .outOfBounds)
    else match bindLabel l st.names p.label addr with
      | .error e => .error e
      | .ok names => .ok { st with names, cursor := addr }

/-- `equ value`: the label is bound to the operand text, unresolved (R115, R116). Without a label or a value there is
nothing to bind: fatal (DESIGN CHOICE, log 21). -/
def runEqu (l : SrcLine) (p : Parts) (st : AsmState) : Except AsmError AsmState :=
  match p.label, p.operand with
  | some name, _ :: _ =>
    match bindName l st.names { name, value := p.operand, isLabel := false } with
    | .error e => .error e
    | .ok names => .ok { st with names }
  | _, _ => .error (l.error .unknownInstruction)

/-- `dc.b v1,v2,...`, and `db`, its synonym (R116, D20). -/
def runDcb (l : SrcLine) (p : Parts) (st : AsmState) : Except AsmError AsmState :=
  match resolveBytes l st.names (splitAll ',' p.operand) with
  | .error e => .error e
  | .ok bytes => placeData l p.label st bytes

/-- `ds.b size`: `size` bytes of 0 (R116). -/
def runDsb (l : SrcLine) (p : Parts) (st : AsmState) : Except AsmError AsmState :=
  match resolve l st.names p.operand with
  | .error e => .error e
  | .ok size => placeData l p.label st (List.replicate size 0)

/-- One directive. -/
def runDirective (d : Directive) (l : SrcLine) (p : Parts) (st : AsmState) : Except AsmError AsmState :=
  match d with
  | .org => runOrg l p st
  | .equ => runEqu l p st
  | .dcb | .db => runDcb l p st
  | .dsb => runDsb l p st

/-- Pass 1: every directive line in order. -/
def pass1 (st : AsmState) : List SrcLine → Except AsmError AsmState
  | [] => .ok st
  | l :: rest =>
    let p := partsOf l.text
    match directiveOf p.word with
    | none => pass1 st rest
    | some d =>
      match runDirective d l p st with
      | .error e => .error e
      | .ok st => pass1 st rest

/-! ### Passes 2 and 3: instructions (R117 to R120) -/

/-- The instruction form and operand token of a line; a line that matches no pattern is fatal (R113). -/
def matchLine (l : SrcLine) (p : Parts) : Except AsmError (Form × Text) :=
  let (shape, token) := shapeOf p.operand
  match formOf p.word shape with
  | some f => .ok (f, token)
  | none => .error (l.error .unknownInstruction)

/-- Pass 2: binds the label of each instruction line to its address and advances by its length (R117, D23). -/
def pass2 (st : AsmState) : List SrcLine → Except AsmError AsmState
  | [] => .ok st
  | l :: rest =>
    let p := partsOf l.text
    match directiveOf p.word with
    | some _ => pass2 st rest
    | none =>
      match matchLine l p with
      | .error e => .error e
      | .ok (f, _) =>
        match bindLabel l st.names p.label st.cursor with
        | .error e => .error e
        | .ok names => pass2 { st with names, cursor := st.cursor + f.length } rest

/-- The instruction of a form with an operand value: a 1-byte field takes `value mod 256`, a 2-byte field
`value mod 65536`, low byte first (R119, D21). -/
def formInstrOf (f : Form) (value : Nat) : Instr :=
  f.instr (BitVec.ofNat 8 (value % 256)) (BitVec.ofNat 8 (value / 256 % 256))

/-- The value of a line's operand token (R118); an inherent instruction has none. -/
def operandValue (l : SrcLine) (table : List Binding) (f : Form) (token : Text) : Except AsmError Nat :=
  match formShape f with
  | .absent => .ok 0
  | .immediate | .plain | .indexedX | .indexedY => resolve l table token

/-- Pass 3: emits the opcode byte and operand bytes of each instruction line (R118, R122). -/
def pass3 (map : OpcodeMap) (st : AsmState) : List SrcLine → Except AsmError AsmState
  | [] => .ok st
  | l :: rest =>
    let p := partsOf l.text
    match directiveOf p.word with
    | some _ => pass3 map st rest
    | none =>
      match matchLine l p with
      | .error e => .error e
      | .ok (f, token) =>
        match operandValue l st.names f token with
        | .error e => .error e
        | .ok value =>
          let bytes := encodeWith map (formInstrOf f value)
          match emitBytes l st.memory st.cursor bytes with
          | .error e => .error e
          | .ok memory =>
            let lines := st.lines ++ [(st.cursor, l.num, l.raw)]
            pass3 map { st with memory, lines, cursor := st.cursor + bytes.length } rest

/-! ### The assembler -/

/-- What assembly gives (R110): the written bytes, the label table and the line table (R123). -/
structure AsmOutput where
  memory : Sparse
  symbols : List Binding
  lines : List (Nat × Nat × Text)
  deriving DecidableEq, Repr

/-- `assemble(sourceLines)` (R110): the whole output, or the one fatal error and no output (R121). -/
def assembleWith (map : OpcodeMap) (src : List Text) : Except AsmError AsmOutput :=
  match preprocess src with
  | .error e => .error e
  | .ok ls =>
    match pass1 { cursor := 0, memory := [], names := [], lines := [] } ls with
    | .error e => .error e
    | .ok st1 =>
      match pass2 st1 ls with
      | .error e => .error e
      | .ok st2 =>
        match pass3 map { st2 with cursor := st1.cursor } ls with
        | .error e => .error e
        | .ok st3 => .ok { memory := st3.memory, symbols := st3.names.filter (·.isLabel), lines := st3.lines }

/-- The assembler under the default opcode map. -/
def assemble (src : List Text) : Except AsmError AsmOutput := assembleWith defaultMap src

end Sys2Proof.Machine
end

