-- ==== Sys2Proof/Machine/Effects.lean ====
section
/-! DEFINITION. What the spec's tables say an instruction touches, in the terms statements use: the register access matrix
of `10_state.md` R26, and the data accesses (`20_memory.md` R61), their addresses computed as the meanings compute them.
`exec` does not use these: the statements compare the two. -/

namespace Sys2Proof.Machine

/-- R26, column A, `W` or `RW`. -/
def writesA : Instr → Bool
  | .tba | .ldaaImm _ | .ldaaAbs _ | .ldaaX _ | .ldaaY _ => true
  | .sumBa | .andBa | .orBa | .coma | .shfaL | .shfaR => true
  | _ => false

/-- R26, column B, `W` or `RW`. -/
def writesB : Instr → Bool
  | .tab | .ldabImm _ | .ldabAbs _ | .ldabX _ | .ldabY _ => true
  | .sumAb | .andAb | .orAb | .comb | .shfbL | .shfbR => true
  | _ => false

/-- R26, column X, `W` or `RW`. -/
def writesX : Instr → Bool
  | .ldxAbs _ | .ldxImm _ | .inx => true
  | _ => false

/-- R26, column Y, `W` or `RW`. -/
def writesY : Instr → Bool
  | .ldyAbs _ | .ldyImm _ | .iny => true
  | _ => false

/-- R26, column A, `R` or `RW`. -/
def readsA : Instr → Bool
  | .tab | .staaAbs _ | .staaX _ | .staaY _ => true
  | .sumBa | .sumAb | .andBa | .andAb | .orBa | .orAb | .coma | .shfaL | .shfaR => true
  | .beq _ | .bne _ | .bn _ | .bp _ | .beq16 _ | .bne16 _ | .bn16 _ | .bp16 _ => true
  | _ => false

/-- R26, column B, `R` or `RW`. -/
def readsB : Instr → Bool
  | .tba | .stabAbs _ | .stabX _ | .stabY _ => true
  | .sumBa | .sumAb | .andBa | .andAb | .orBa | .orAb | .comb | .shfbL | .shfbR => true
  | _ => false

/-- R26, column X, `R` or `RW`. -/
def readsX : Instr → Bool
  | .ldaaX _ | .ldabX _ | .staaX _ | .stabX _ | .inx => true
  | _ => false

/-- R26, column Y, `R` or `RW`. -/
def readsY : Instr → Bool
  | .ldaaY _ | .ldabY _ | .staaY _ | .stabY _ | .iny => true
  | _ => false

/-- The branches (`42_branches.md`), the only instructions that may leave PC elsewhere than at PC + L (R28). -/
def isBranch : Instr → Bool
  | .beq _ | .bne _ | .bn _ | .bp _ | .beq16 _ | .bne16 _ | .bn16 _ | .bp16 _ => true
  | _ => false

/-- The address an instruction stores to, as its meaning computes it; none for an instruction that stores nothing. -/
def storeAddress (i : Instr) (s : State) : Option Word :=
  match i with
  | .staaAbs addr | .stabAbs addr => some addr
  | .staaX d | .stabX d => some (indexedEa s.x d)
  | .staaY d | .stabY d => some (indexedEa s.y d)
  | _ => none

/-- The byte a storing instruction stores: B for `stab`, A for `staa` (R57). -/
def storedByte (i : Instr) (s : State) : Byte :=
  match i with
  | .stabAbs _ | .stabX _ | .stabY _ => s.b
  | _ => s.a

/-- The addresses of an instruction's data accesses, in the order it makes them (R61, R58, R255). -/
def dataAddresses (i : Instr) (s : State) : List Word :=
  match i with
  | .ldaaAbs addr | .ldabAbs addr | .staaAbs addr | .stabAbs addr => [addr]
  | .ldaaX d | .ldabX d | .staaX d | .stabX d => [indexedEa s.x d]
  | .ldaaY d | .ldabY d | .staaY d | .stabY d => [indexedEa s.y d]
  | .ldxAbs addr | .ldyAbs addr => [addr, addr + 1]
  | _ => []

end Sys2Proof.Machine
end

