-- ==== Sys2Proof/Machine/Platform.lean ====
section
/-! DEFINITION. The agents around the core (`60_exceptions.md` sections 3 and 4): the input bridge's writes, the two
disciplines of HOST_INTERLEAVE (`20_memory.md` R65), the execution driver, the debugger's effect on the core, and the
start of a run (`70_reset_and_hazards.md` R294). The core's own step is `Sys2Proof.Machine.step`; nothing here changes
what an instruction does. -/

namespace Sys2Proof.Machine

/-! ### The memory-mapped cells (R261) -/

/-- The three control cells: `MMIO_BASE + 0`, `+1`, `+2`. -/
def isControlCell (c : Mmio) (a : Nat) : Bool := decide (c.base ≤ a) && decide (a < c.base + 3)

/-- The input-line cells: `MMIO_BASE + MMIO_INPUT_OFFSET + i` for `i` below MMIO_INPUT_COUNT. -/
def isInputCell (c : Mmio) (a : Nat) : Bool :=
  decide (c.base + c.inputOffset ≤ a) && decide (a < c.base + c.inputOffset + c.inputCount)

/-- A legal placement: every cell in RAM, the input cells disjoint from the control cells (R261, D17). -/
def mmioValid (c : Mmio) : Bool :=
  decide (0x1000 ≤ c.base) && decide (c.base + 3 ≤ 0x2000) &&
    (decide (c.inputCount = 0) ||
      (decide (c.base + c.inputOffset + c.inputCount ≤ 0x2000) && decide (3 ≤ c.inputOffset)))

/-! ### The input bridge (R67, R262) -/

/-- One byte written by the input bridge. -/
structure HostWrite where
  addr : Word
  value : Byte
  deriving DecidableEq, Repr

/-- What the input bridge may write: any byte to a control cell, 0 or 1 to an input-line cell (R262), in RAM (R67). -/
def hostWriteLegal (c : Mmio) (w : HostWrite) : Bool :=
  decide (0x1000 ≤ w.addr.toNat) && decide (w.addr.toNat < 0x2000) &&
    (isControlCell c w.addr.toNat || (isInputCell c w.addr.toNat && (w.value == 0 || w.value == 1)))

/-- The effect of one host write on memory: one byte access, atomic (R62, R66). A write the bridge may not make is none
of its writes. -/
def hostWrite (c : Mmio) (m : Memory) (w : HostWrite) : Memory :=
  if hostWriteLegal c w then m.set w.addr.toNat w.value else m

/-- The effect of host writes in order. -/
def hostWrites (c : Mmio) (m : Memory) (ws : List HostWrite) : Memory := ws.foldl (hostWrite c) m

/-! ### A step with host writes around or inside it (R65) -/

/-- Changes the next state, if there is one. -/
def onNext (f : State → State) : StepResult → StepResult
  | .next s => .next (f s)
  | .fault r => .fault r
  | .refused r => .refused r

/-- An instruction whose first data access sees `m1` and whose second sees `m2`: only `ldx addr` and `ldy addr` make a
second (R61). -/
def execBetween (m1 m2 : Memory) (i : Instr) (s : State) : StepResult :=
  match i with
  | .ldxAbs addr => loadWordFrom m1 m2 State.setX addr 3 (s.setMem m1)
  | .ldyAbs addr => loadWordFrom m1 m2 State.setY addr 3 (s.setMem m1)
  | i => exec i (s.setMem m1)

/-- A step under `HOST_INTERLEAVE = between_accesses`: the writes of `ws[k]` take effect just before the step's byte
access number `k` (the opcode fetch is number 0), those past its last access after it (R65 (b), R298; log 17, log 28).
An error undoes what the core did, not what the host wrote. -/
def stepBetweenAccesses (map : OpcodeMap) (c : Mmio) (ws : List (List HostWrite)) (s : State) : StepResult :=
  match s.fault with
  | some r => .fault (.stopped r)
  | none =>
    let seen (k : Nat) : Memory := hostWrites c s.mem (ws.take (k + 1)).flatten
    match fetchFrom map (seen 0) (seen 1) (seen 2) s.pc with
    | .error r => raiseError r (s.setMem (hostWrites c s.mem ws.flatten))
    | .ok i =>
      let n := i.length
      onNext (fun t => t.setMem (hostWrites c t.mem (ws.drop (n + 1)).flatten)) (execBetween (seen n) (seen (n + 1)) i s)

/-- A step under `HOST_INTERLEAVE = between_steps`: the writes take effect before the step (R65 (a)). -/
def stepBetweenSteps (map : OpcodeMap) (c : Mmio) (ws : List (List HostWrite)) (s : State) : StepResult :=
  stepWith map (s.setMem (hostWrites c s.mem ws.flatten))

/-- The driver's next call of `step()`, with the host writes that arrive for it (R263). -/
def stepWithHost (p : Params) (ws : List (List HostWrite)) (s : State) : StepResult :=
  match p.interleave with
  | .betweenSteps => stepBetweenSteps p.opcodeMap p.mmio ws s
  | .betweenAccesses => stepBetweenAccesses p.opcodeMap p.mmio ws s

/-! ### The driver and the debugger (R263 to R268) -/

/-- One iteration of a driving loop: whether the shared cancel signal is set when it is polled (R263), and the host
writes that arrive for the step. -/
structure Tick where
  cancel : Bool
  arrivals : List (List HostWrite)
  deriving DecidableEq, Repr

/-- How a run stands (R268). -/
inductive RunEnd where
  /-- (a) A step raised an error; the state holds its record. -/
  | faulted (s : State) (r : FaultRecord)
  /-- (b) A step was refused. -/
  | refused (s : State) (r : Refusal)
  /-- (c) After a step, PC is in STOP_SET. -/
  | stopped (s : State)
  /-- (d) The host cancelled between steps. -/
  | cancelled (s : State)
  /-- The iterations given are used up and the run goes on. -/
  | unfinished (s : State)
  deriving DecidableEq, Repr

/-- The driving loop over the given iterations: poll the signal (R263), step, stop at an error, a refusal or a
breakpoint; the breakpoint test is made after each step, on the PC it left (R267, D34). DESIGN CHOICE (log 33): the poll
comes before the iteration's host writes, so a cancelled run ends without them, and so do a run whose step is refused and
one that starts in the fault state. -/
def drive (p : Params) : List Tick → State → RunEnd
  | [], s => .unfinished s
  | t :: ts, s =>
    if t.cancel then .cancelled s
    else match stepWithHost p t.arrivals s with
      | .fault (.stopped r) => .faulted s r
      | .refused r => .refused s r
      | .next s' =>
        match s'.fault with
        | some r => .faulted s' r
        | none => if s'.pc ∈ p.stopSet then .stopped s' else drive p ts s'

/-- The debugger's `step [n]`: `n` steps, stopping early if one raises (R264); a breakpoint does not stop it. -/
def debugStep (p : Params) (ticks : List Tick) (s : State) : RunEnd := drive { p with stopSet := [] } ticks s

/-- The debugger's `continue` (R266). -/
def debugContinue (p : Params) (ticks : List Tick) (s : State) : RunEnd := drive p ticks s

/-- The debugger's `run` (R265): with PC not 0 it needs the confirmation and then writes PC alone; `none` is the
declined confirmation, a no-op. -/
def debugRun (p : Params) (confirmed : Bool) (ticks : List Tick) (s : State) : Option RunEnd :=
  if s.pc = 0 then some (drive p ticks s)
  else if confirmed then some (drive p ticks (s.setPc 0))
  else none

/-- What a tap, or the renderer, reads at an address (R267, R67): nothing changes. -/
def hostRead (s : State) (addr : Word) : Except FaultRecord Byte := memRead s.mem addr

/-! ### The start of a run (R294) -/

/-- Loads both images into a fresh MemoryImage and starts at PC = 0x0000 with INIT_REGS (R290 to R294). -/
def boot (p : Params) (rom ram : Option Text) : Except LoadError State :=
  match loadImages rom ram with
  | .error e => .error e
  | .ok m => .ok (State.start p.initRegs m)

end Sys2Proof.Machine
end

