-- ==== Sys2Proof/Safety.lean ====
section
/-! DEFINITION. What counts as a safe state, step and run (`60_exceptions.md` R268): a fault is a bad end, a refusal
makes every claim about the run unprovable. -/

namespace Sys2Proof.Machine

/-- No error has been raised (`10_state.md` R34). -/
def State.Safe (s : State) : Prop := s.fault = none

/-- A step that completes its instruction: it answers a next state that no error was raised in. -/
def StepCompletes (s t : State) : Prop := step s = .next t ∧ t.fault = none

/-- `k` steps that all complete lead from `s` to `t`. -/
inductive RunsTo : Nat → State → State → Prop where
  | done (s : State) : RunsTo 0 s s
  | more {k : Nat} {s t u : State} (h : StepCompletes s t) (r : RunsTo k t u) : RunsTo (k + 1) s u

end Sys2Proof.Machine
end

