-- ==== Sys2Proof/Certificates/Slice0/Obligations.lean ====
section
/-! DEFINITION. The statements for the provers. Numbers are written as the spec writes them (sums, products and
remainders of natural numbers), not by the functions the meanings use, so that a statement can disagree with the model. Where an opcode byte is written out,
it is the default opcode map's, the spec's own choice (D1, log 3). -/

open Sys2Proof Sys2Proof.Machine

/-! ### Start of a run -/

/-- R290, R293: after reset PC is 0x0000 and no error is recorded. -/
def Obligations.ResetStartsAtZeroWithoutFault : Prop :=
  State.reset.pc = 0x0000 ∧ State.reset.fault = none

/-- R291, R290, R293: A, B, X and Y start with the values of INIT_REGS, whatever they are; memory is the loaded one. -/
def Obligations.StartTakesInitRegsAndImage : Prop :=
  ∀ (r : InitRegs) (m : Memory),
    (State.start r m).a = r.a0 ∧ (State.start r m).b = r.b0 ∧ (State.start r m).x = r.x0 ∧ (State.start r m).y = r.y0 ∧
    (State.start r m).pc = 0x0000 ∧ (State.start r m).mem = m ∧ (State.start r m).fault = none

/-- The memory of the reset state is canonical (an invariant of the model), and each of its bytes is 0 (R292). -/
def Obligations.ResetMemoryIsCanonicalAndZero : Prop :=
  State.reset.Inv ∧ ∀ a, State.reset.mem.get a = 0

/-! ### Fetch, decode and dispatch -/

/-- R95: when the bytes at PC decode to an instruction, all of them backed, a step of a core without a fault is `exec` of
that instruction on that state; nothing is added around it (`exec` itself writes PC, R27). -/
def Obligations.StepRunsTheDecodedInstruction : Prop :=
  ∀ (s : State) (i : Instr) (rest : List Byte),
    s.fault = none →
    decode [s.mem.get s.pc.toNat, s.mem.get (s.pc.toNat + 1), s.mem.get (s.pc.toNat + 2)] = .ok (i, rest) →
    s.pc.toNat + i.length ≤ 0x2000 →
    step s = exec i s

/-- R29, R95, R51: an opcode fetch at or above 0x2000 raises OutOfBounds(PC), under any opcode map. -/
def Obligations.OpcodeFetchOutOfBoundsRaises : Prop :=
  ∀ (map : OpcodeMap) (s : State), s.fault = none → 0x2000 ≤ s.pc.toNat →
    stepWith map s = .next { s with fault := some (.outOfBounds s.pc) }

/-- R29, R255: an operand byte at or above 0x2000 raises OutOfBounds at the first such address, before the instruction
does anything; the opcode byte itself is backed, so that address is 0x2000. -/
def Obligations.OperandFetchOutOfBoundsRaises : Prop :=
  ∀ (map : OpcodeMap) (s : State), s.fault = none → s.pc.toNat < 0x2000 →
    0x2000 ≤ s.pc.toNat + operandCountAt map (s.mem.get s.pc.toNat) →
    stepWith map s = .next { s with fault := some (.outOfBounds 0x2000) }

/-- R93: under any map an opcode byte of 0x32 to 0xFF raises UnknownInstruction(opcode, PC); the instruction that stands
for it raises the same wherever it is executed. -/
def Obligations.OpcodeAboveRangeRaisesUnknownInstruction : Prop :=
  (∀ (map : OpcodeMap) (s : State), s.fault = none → s.pc.toNat < 0x2000 → 0x32 ≤ (s.mem.get s.pc.toNat).toNat →
    stepWith map s = .next { s with fault := some (.unknownInstruction (s.mem.get s.pc.toNat) s.pc) }) ∧
  ∀ (op : Byte) (s : State), exec (.illegal op) s = .next { s with fault := some (.unknownInstruction op s.pc) }

/-- R94: a code in range that the map assigns to no documented instruction is refused: neither a fault nor a next state.
Under the default map these are 0x2A to 0x31. -/
def Obligations.UndocumentedOpcodeIsRefused : Prop :=
  (∀ (map : OpcodeMap) (s : State), s.fault = none → s.pc.toNat < 0x2000 → (s.mem.get s.pc.toNat).toNat < 0x32 →
    map.formAt (s.mem.get s.pc.toNat) = none →
    stepWith map s = .refused (.undocumentedOpcode (s.mem.get s.pc.toNat))) ∧
  (∀ (op : Byte) (s : State), exec (.undocumented op) s = .refused (.undocumentedOpcode op)) ∧
  ∀ op : Byte, op.toNat < 0x32 → (defaultMap.formAt op = none ↔ 0x2A ≤ op.toNat)

/-- A step is refused only for an undocumented opcode byte that it fetched (R94, R268): nothing else has no meaning. -/
def Obligations.OnlyUndocumentedOpcodesAreRefused : Prop :=
  ∀ (map : OpcodeMap) (s : State) (r : Refusal), stepWith map s = .refused r →
    s.fault = none ∧ s.pc.toNat < 0x2000 ∧ r = .undocumentedOpcode (s.mem.get s.pc.toNat) ∧
    map.formAt (s.mem.get s.pc.toNat) = none ∧ (s.mem.get s.pc.toNat).toNat < 0x32

/-- R92: the 42 documented instructions take the codes 0x00 to 0x29 in the table's order, each once. -/
def Obligations.DefaultMapFollowsTheTable : Prop :=
  defaultMap.valid = true ∧ (∀ k : Fin 42, defaultMap.formAt (BitVec.ofNat 8 k.val) = allForms[k.val]?) ∧
  allForms.length = 42

/-- Words written out bit by bit from the encodings of R91 and R92 decode to the instructions they stand for. -/
def Obligations.WrittenOutWordsDecode : Prop :=
  decode [0b00000001#8] = .ok (.tba, []) ∧
  decode [0b00000010#8, 0b01111111#8] = .ok (.ldaaImm 0x7F, []) ∧
  decode [0b00000110#8, 0b11111111#8, 0b00011111#8] = .ok (.staaAbs 0x1FFF, []) ∧
  decode [0b00001010#8, 0b00000101#8, 0b00010000#8] = .ok (.ldxImm 0x1005, []) ∧
  decode [0b00010011#8, 0b00001111#8] = .ok (.stabY 0x0F, []) ∧
  decode [0b00011101#8] = .ok (.shfaR, []) ∧
  decode [0b00100100#8, 0b00010000#8] = .ok (.bn 0x10, []) ∧
  decode [0b00100110#8, 0b00110100#8, 0b00010010#8] = .ok (.beq16 0x1234, []) ∧
  decode [0b00101010#8] = .ok (.undocumented 0x2A, []) ∧
  decode [0b00110010#8] = .ok (.illegal 0x32, [])

/-- Decoding an encoded well-formed instruction gives it back, with the bytes after it, under every legal opcode map
(R90, R91, R92, R96, R97). -/
def Obligations.DecodeOfEncodeIsIdentity : Prop :=
  ∀ (map : OpcodeMap) (i : Instr) (rest : List Byte), map.valid = true → i.wfUnder map = true →
    decodeWith map (encodeWith map i ++ rest) = .ok (i, rest)

/-- Each decoded word has one meaning: whatever decodes is well formed, and its encoding is the bytes it was decoded
from (R90, R99, R101). -/
def Obligations.EncodeOfDecodeIsIdentity : Prop :=
  ∀ (map : OpcodeMap) (bytes rest : List Byte) (i : Instr), map.valid = true →
    decodeWith map bytes = .ok (i, rest) → i.wfUnder map = true ∧ bytes = encodeWith map i ++ rest

/-- R99: the opcode byte alone gives the length. Two instructions decoded from the same opcode byte have the same
length, and each takes exactly that many bytes. -/
def Obligations.OpcodeAloneGivesTheLength : Prop :=
  ∀ (map : OpcodeMap) (op : Byte) (r1 r2 s1 s2 : List Byte) (i j : Instr),
    decodeWith map (op :: r1) = .ok (i, s1) → decodeWith map (op :: r2) = .ok (j, s2) →
    i.length = j.length ∧ r1.length + 1 = s1.length + i.length ∧ r2.length + 1 = s2.length + j.length

/-- The host's word: the step after placing it at PC is `exec` of the instruction the decoder reads from it. -/
def Obligations.PlacedWordIsTheNextInstruction : Prop :=
  ∀ (s : State) (nbits w : Nat) (i : Instr), s.Inv → s.fault = none → s.pc.toNat + 3 ≤ 0x2000 →
    decodeTableWord nbits w = some i →
    step (s.withFetchWord nbits w) = exec i (s.withFetchWord nbits w)

/-! ### Results: register transfer, immediate loads -/

/-- R160, R161 (directions: the spec's D3): tab copies A into B, tba copies B into A, one byte each. -/
def Obligations.TransferResults : Prop :=
  (∀ rest, decode (0x00 :: rest) = .ok (.tab, rest)) ∧ (∀ rest, decode (0x01 :: rest) = .ok (.tba, rest)) ∧
  ∀ s : State,
    exec .tab s = .next { s with b := s.a, pc := s.pc + 1 } ∧
    exec .tba s = .next { s with a := s.b, pc := s.pc + 1 }

/-- R162, R163: ldaa #v and ldab #v load the byte after the opcode. -/
def Obligations.ImmediateByteLoadResults : Prop :=
  (∀ v rest, decode (0x02 :: v :: rest) = .ok (.ldaaImm v, rest)) ∧
  (∀ v rest, decode (0x03 :: v :: rest) = .ok (.ldabImm v, rest)) ∧
  ∀ (v : Byte) (s : State),
    exec (.ldaaImm v) s = .next { s with a := v, pc := s.pc + 2 } ∧
    exec (.ldabImm v) s = .next { s with b := v, pc := s.pc + 2 }

/-- R170, R171: ldx #v and ldy #v load the two bytes after the opcode, low byte first. -/
def Obligations.ImmediateWordLoadResults : Prop :=
  (∀ lo hi rest, decode (0x0A :: lo :: hi :: rest) = .ok (.ldxImm (BitVec.ofNat 16 (hi.toNat * 256 + lo.toNat)), rest)) ∧
  (∀ lo hi rest, decode (0x0B :: lo :: hi :: rest) = .ok (.ldyImm (BitVec.ofNat 16 (hi.toNat * 256 + lo.toNat)), rest)) ∧
  ∀ (v : Word) (s : State),
    exec (.ldxImm v) s = .next { s with x := v, pc := s.pc + 3 } ∧
    exec (.ldyImm v) s = .next { s with y := v, pc := s.pc + 3 }

/-! ### Results: absolute loads and stores -/

/-- R164, R165: ldaa addr and ldab addr read the byte at addr, or raise OutOfBounds(addr) at or above 0x2000. -/
def Obligations.AbsoluteByteLoadResults : Prop :=
  (∀ lo hi rest, decode (0x04 :: lo :: hi :: rest) = .ok (.ldaaAbs (BitVec.ofNat 16 (hi.toNat * 256 + lo.toNat)), rest)) ∧
  (∀ lo hi rest, decode (0x05 :: lo :: hi :: rest) = .ok (.ldabAbs (BitVec.ofNat 16 (hi.toNat * 256 + lo.toNat)), rest)) ∧
  ∀ (addr : Word) (s : State),
    (addr.toNat < 0x2000 →
      exec (.ldaaAbs addr) s = .next { s with a := s.mem.get addr.toNat, pc := s.pc + 3 } ∧
      exec (.ldabAbs addr) s = .next { s with b := s.mem.get addr.toNat, pc := s.pc + 3 }) ∧
    (0x2000 ≤ addr.toNat →
      exec (.ldaaAbs addr) s = .next { s with fault := some (.outOfBounds addr) } ∧
      exec (.ldabAbs addr) s = .next { s with fault := some (.outOfBounds addr) })

/-- R168, R169: ldx addr and ldy addr read the low byte at addr and the high byte at addr + 1 (byte order: the spec's
D6), or raise OutOfBounds(addr), or OutOfBounds(0x2000) at 0x1FFF. -/
def Obligations.AbsoluteWordLoadResults : Prop :=
  (∀ lo hi rest, decode (0x08 :: lo :: hi :: rest) = .ok (.ldxAbs (BitVec.ofNat 16 (hi.toNat * 256 + lo.toNat)), rest)) ∧
  (∀ lo hi rest, decode (0x09 :: lo :: hi :: rest) = .ok (.ldyAbs (BitVec.ofNat 16 (hi.toNat * 256 + lo.toNat)), rest)) ∧
  ∀ (addr v : Word) (s : State), v.toNat = (s.mem.get (addr.toNat + 1)).toNat * 256 + (s.mem.get addr.toNat).toNat →
    (addr.toNat < 0x1FFF →
      exec (.ldxAbs addr) s = .next { s with x := v, pc := s.pc + 3 } ∧
      exec (.ldyAbs addr) s = .next { s with y := v, pc := s.pc + 3 }) ∧
    (addr.toNat = 0x1FFF →
      exec (.ldxAbs addr) s = .next { s with fault := some (.outOfBounds 0x2000) } ∧
      exec (.ldyAbs addr) s = .next { s with fault := some (.outOfBounds 0x2000) }) ∧
    (0x2000 ≤ addr.toNat →
      exec (.ldxAbs addr) s = .next { s with fault := some (.outOfBounds addr) } ∧
      exec (.ldyAbs addr) s = .next { s with fault := some (.outOfBounds addr) })

/-- R166, R167: staa addr and stab addr store A or B in RAM, or raise ReadOnlyViolation(addr) below 0x1000, or
OutOfBounds(addr) at or above 0x2000 (the spec's D8); in a store, every byte but the one at addr reads as before. -/
def Obligations.AbsoluteStoreResults : Prop :=
  (∀ lo hi rest, decode (0x06 :: lo :: hi :: rest) = .ok (.staaAbs (BitVec.ofNat 16 (hi.toNat * 256 + lo.toNat)), rest)) ∧
  (∀ lo hi rest, decode (0x07 :: lo :: hi :: rest) = .ok (.stabAbs (BitVec.ofNat 16 (hi.toNat * 256 + lo.toNat)), rest)) ∧
  ∀ (addr : Word) (s : State), s.Inv →
    (0x1000 ≤ addr.toNat → addr.toNat < 0x2000 →
      (∃ m, exec (.staaAbs addr) s = .next { s with mem := m, pc := s.pc + 3 } ∧
        ∀ a, m.get a = if a = addr.toNat then s.a else s.mem.get a) ∧
      (∃ m, exec (.stabAbs addr) s = .next { s with mem := m, pc := s.pc + 3 } ∧
        ∀ a, m.get a = if a = addr.toNat then s.b else s.mem.get a)) ∧
    (addr.toNat < 0x1000 →
      exec (.staaAbs addr) s = .next { s with fault := some (.readOnlyViolation addr) } ∧
      exec (.stabAbs addr) s = .next { s with fault := some (.readOnlyViolation addr) }) ∧
    (0x2000 ≤ addr.toNat →
      exec (.staaAbs addr) s = .next { s with fault := some (.outOfBounds addr) } ∧
      exec (.stabAbs addr) s = .next { s with fault := some (.outOfBounds addr) })

/-! ### Results: indexed loads and stores -/

/-- R172 to R176: an indexed load reads the byte at EA = (index + d) mod 0x10000, d unsigned, checked after the
addition (the spec's D7), and leaves the index register alone. -/
def Obligations.IndexedLoadResults : Prop :=
  (∀ d rest, decode (0x0C :: d :: rest) = .ok (.ldaaX d, rest)) ∧ (∀ d rest, decode (0x0D :: d :: rest) = .ok (.ldaaY d, rest)) ∧
  (∀ d rest, decode (0x0E :: d :: rest) = .ok (.ldabX d, rest)) ∧ (∀ d rest, decode (0x0F :: d :: rest) = .ok (.ldabY d, rest)) ∧
  ∀ (d : Byte) (ea : Word) (s : State),
    (ea.toNat = (s.x.toNat + d.toNat) % 0x10000 →
      (ea.toNat < 0x2000 →
        exec (.ldaaX d) s = .next { s with a := s.mem.get ea.toNat, pc := s.pc + 2 } ∧
        exec (.ldabX d) s = .next { s with b := s.mem.get ea.toNat, pc := s.pc + 2 }) ∧
      (0x2000 ≤ ea.toNat →
        exec (.ldaaX d) s = .next { s with fault := some (.outOfBounds ea) } ∧
        exec (.ldabX d) s = .next { s with fault := some (.outOfBounds ea) })) ∧
    (ea.toNat = (s.y.toNat + d.toNat) % 0x10000 →
      (ea.toNat < 0x2000 →
        exec (.ldaaY d) s = .next { s with a := s.mem.get ea.toNat, pc := s.pc + 2 } ∧
        exec (.ldabY d) s = .next { s with b := s.mem.get ea.toNat, pc := s.pc + 2 }) ∧
      (0x2000 ≤ ea.toNat →
        exec (.ldaaY d) s = .next { s with fault := some (.outOfBounds ea) } ∧
        exec (.ldabY d) s = .next { s with fault := some (.outOfBounds ea) }))

/-- R177 to R180, X: an indexed store stores A or B at EA = (X + d) mod 0x10000 in RAM, or raises. -/
def Obligations.IndexedByXStoreResults : Prop :=
  (∀ d rest, decode (0x10 :: d :: rest) = .ok (.staaX d, rest)) ∧ (∀ d rest, decode (0x12 :: d :: rest) = .ok (.stabX d, rest)) ∧
  ∀ (d : Byte) (ea : Word) (s : State), s.Inv → ea.toNat = (s.x.toNat + d.toNat) % 0x10000 →
    (0x1000 ≤ ea.toNat → ea.toNat < 0x2000 →
      (∃ m, exec (.staaX d) s = .next { s with mem := m, pc := s.pc + 2 } ∧
        ∀ a, m.get a = if a = ea.toNat then s.a else s.mem.get a) ∧
      (∃ m, exec (.stabX d) s = .next { s with mem := m, pc := s.pc + 2 } ∧
        ∀ a, m.get a = if a = ea.toNat then s.b else s.mem.get a)) ∧
    (ea.toNat < 0x1000 →
      exec (.staaX d) s = .next { s with fault := some (.readOnlyViolation ea) } ∧
      exec (.stabX d) s = .next { s with fault := some (.readOnlyViolation ea) }) ∧
    (0x2000 ≤ ea.toNat →
      exec (.staaX d) s = .next { s with fault := some (.outOfBounds ea) } ∧
      exec (.stabX d) s = .next { s with fault := some (.outOfBounds ea) })

/-- R177 to R180, Y: an indexed store stores A or B at EA = (Y + d) mod 0x10000 in RAM, or raises. -/
def Obligations.IndexedByYStoreResults : Prop :=
  (∀ d rest, decode (0x11 :: d :: rest) = .ok (.staaY d, rest)) ∧ (∀ d rest, decode (0x13 :: d :: rest) = .ok (.stabY d, rest)) ∧
  ∀ (d : Byte) (ea : Word) (s : State), s.Inv → ea.toNat = (s.y.toNat + d.toNat) % 0x10000 →
    (0x1000 ≤ ea.toNat → ea.toNat < 0x2000 →
      (∃ m, exec (.staaY d) s = .next { s with mem := m, pc := s.pc + 2 } ∧
        ∀ a, m.get a = if a = ea.toNat then s.a else s.mem.get a) ∧
      (∃ m, exec (.stabY d) s = .next { s with mem := m, pc := s.pc + 2 } ∧
        ∀ a, m.get a = if a = ea.toNat then s.b else s.mem.get a)) ∧
    (ea.toNat < 0x1000 →
      exec (.staaY d) s = .next { s with fault := some (.readOnlyViolation ea) } ∧
      exec (.stabY d) s = .next { s with fault := some (.readOnlyViolation ea) }) ∧
    (0x2000 ≤ ea.toNat →
      exec (.staaY d) s = .next { s with fault := some (.outOfBounds ea) } ∧
      exec (.stabY d) s = .next { s with fault := some (.outOfBounds ea) })

/-! ### Results: ALU and increment -/

/-- R201, R202 (destinations: the spec's D4): the sum modulo 256, no carry kept. -/
def Obligations.SumResults : Prop :=
  (∀ rest, decode (0x14 :: rest) = .ok (.sumBa, rest)) ∧ (∀ rest, decode (0x15 :: rest) = .ok (.sumAb, rest)) ∧
  ∀ (s : State) (v : Byte), v.toNat = (s.a.toNat + s.b.toNat) % 256 →
    exec .sumBa s = .next { s with a := v, pc := s.pc + 1 } ∧
    exec .sumAb s = .next { s with b := v, pc := s.pc + 1 }

/-- R203 to R206 (destinations: the spec's D4): AND and OR, bit by bit. -/
def Obligations.BitwiseResults : Prop :=
  (∀ rest, decode (0x16 :: rest) = .ok (.andBa, rest)) ∧ (∀ rest, decode (0x17 :: rest) = .ok (.andAb, rest)) ∧
  (∀ rest, decode (0x18 :: rest) = .ok (.orBa, rest)) ∧ (∀ rest, decode (0x19 :: rest) = .ok (.orAb, rest)) ∧
  ∀ (s : State) (v w : Byte),
    (∀ k, k < 8 → v.getLsbD k = (s.a.getLsbD k && s.b.getLsbD k)) →
    (∀ k, k < 8 → w.getLsbD k = (s.a.getLsbD k || s.b.getLsbD k)) →
    exec .andBa s = .next { s with a := v, pc := s.pc + 1 } ∧
    exec .andAb s = .next { s with b := v, pc := s.pc + 1 } ∧
    exec .orBa s = .next { s with a := w, pc := s.pc + 1 } ∧
    exec .orAb s = .next { s with b := w, pc := s.pc + 1 }

/-- R207, R208: the complement, which is 0xFF - v; applied twice it restores the accumulator. -/
def Obligations.ComplementResults : Prop :=
  (∀ rest, decode (0x1A :: rest) = .ok (.coma, rest)) ∧ (∀ rest, decode (0x1B :: rest) = .ok (.comb, rest)) ∧
  ∀ (s : State) (v w : Byte), v.toNat = 0xFF - s.a.toNat → w.toNat = 0xFF - s.b.toNat →
    exec .coma s = .next { s with a := v, pc := s.pc + 1 } ∧
    exec .comb s = .next { s with b := w, pc := s.pc + 1 } ∧
    exec .coma { s with a := v, pc := s.pc + 1 } = .next { s with pc := s.pc + 2 } ∧
    exec .comb { s with b := w, pc := s.pc + 1 } = .next { s with pc := s.pc + 2 }

/-- R209 to R212 (one bit: the spec's D5): left shifts keep 8 bits, right shifts are unsigned. -/
def Obligations.ShiftResults : Prop :=
  (∀ rest, decode (0x1C :: rest) = .ok (.shfaL, rest)) ∧ (∀ rest, decode (0x1D :: rest) = .ok (.shfaR, rest)) ∧
  (∀ rest, decode (0x1E :: rest) = .ok (.shfbL, rest)) ∧ (∀ rest, decode (0x1F :: rest) = .ok (.shfbR, rest)) ∧
  ∀ (s : State) (v : Byte),
    (v.toNat = 2 * s.a.toNat % 256 → exec .shfaL s = .next { s with a := v, pc := s.pc + 1 }) ∧
    (v.toNat = s.a.toNat / 2 → exec .shfaR s = .next { s with a := v, pc := s.pc + 1 }) ∧
    (v.toNat = 2 * s.b.toNat % 256 → exec .shfbL s = .next { s with b := v, pc := s.pc + 1 }) ∧
    (v.toNat = s.b.toNat / 2 → exec .shfbR s = .next { s with b := v, pc := s.pc + 1 })

/-- R213, R214: the increments, which wrap modulo 0x10000. -/
def Obligations.IncrementResults : Prop :=
  (∀ rest, decode (0x20 :: rest) = .ok (.inx, rest)) ∧ (∀ rest, decode (0x21 :: rest) = .ok (.iny, rest)) ∧
  ∀ (s : State) (v : Word),
    (v.toNat = (s.x.toNat + 1) % 0x10000 → exec .inx s = .next { s with x := v, pc := s.pc + 1 }) ∧
    (v.toNat = (s.y.toNat + 1) % 0x10000 → exec .iny s = .next { s with y := v, pc := s.pc + 1 })

/-! ### Results: branches -/

/-- R32, R230: the four conditions as functions of A; exactly one of EQ, NE holds and exactly one of N, P. -/
def Obligations.ConditionsPartitionA : Prop :=
  ∀ a : Byte,
    (condEq a = true ↔ a.toNat = 0) ∧ (condNe a = true ↔ a.toNat ≠ 0) ∧
    (condN a = true ↔ 0x80 ≤ a.toNat) ∧ (condP a = true ↔ a.toNat < 0x80) ∧
    condNe a = !condEq a ∧ condP a = !condN a

/-- R231 to R235: a taken 8-bit branch replaces the low byte of PC, PC being the address of the opcode byte (the spec's
D10); one not taken leaves PC + 2. -/
def Obligations.PageBranchResults : Prop :=
  (∀ t rest, decode (0x22 :: t :: rest) = .ok (.beq t, rest)) ∧ (∀ t rest, decode (0x23 :: t :: rest) = .ok (.bne t, rest)) ∧
  (∀ t rest, decode (0x24 :: t :: rest) = .ok (.bn t, rest)) ∧ (∀ t rest, decode (0x25 :: t :: rest) = .ok (.bp t, rest)) ∧
  ∀ (t : Byte) (s : State) (target : Word), target.toNat = s.pc.toNat / 256 * 256 + t.toNat →
    exec (.beq t) s = .next { s with pc := if s.a.toNat = 0 then target else s.pc + 2 } ∧
    exec (.bne t) s = .next { s with pc := if s.a.toNat ≠ 0 then target else s.pc + 2 } ∧
    exec (.bn t) s = .next { s with pc := if 0x80 ≤ s.a.toNat then target else s.pc + 2 } ∧
    exec (.bp t) s = .next { s with pc := if s.a.toNat < 0x80 then target else s.pc + 2 }

/-- R236 to R240: a taken 16-bit branch makes PC the whole operand, low byte first in the instruction; one not taken
leaves PC + 3. -/
def Obligations.AbsoluteBranchResults : Prop :=
  (∀ lo hi rest, decode (0x26 :: lo :: hi :: rest) = .ok (.beq16 (BitVec.ofNat 16 (hi.toNat * 256 + lo.toNat)), rest)) ∧
  (∀ lo hi rest, decode (0x27 :: lo :: hi :: rest) = .ok (.bne16 (BitVec.ofNat 16 (hi.toNat * 256 + lo.toNat)), rest)) ∧
  (∀ lo hi rest, decode (0x28 :: lo :: hi :: rest) = .ok (.bn16 (BitVec.ofNat 16 (hi.toNat * 256 + lo.toNat)), rest)) ∧
  (∀ lo hi rest, decode (0x29 :: lo :: hi :: rest) = .ok (.bp16 (BitVec.ofNat 16 (hi.toNat * 256 + lo.toNat)), rest)) ∧
  ∀ (t : Word) (s : State),
    exec (.beq16 t) s = .next { s with pc := if s.a.toNat = 0 then t else s.pc + 3 } ∧
    exec (.bne16 t) s = .next { s with pc := if s.a.toNat ≠ 0 then t else s.pc + 3 } ∧
    exec (.bn16 t) s = .next { s with pc := if 0x80 ≤ s.a.toNat then t else s.pc + 3 } ∧
    exec (.bp16 t) s = .next { s with pc := if s.a.toNat < 0x80 then t else s.pc + 3 }

/-! ### Frames -/

/-- R26: an instruction that answers a next state leaves each register it does not write unchanged; R25: no register
aliases another, so this is said for each of the four. For every instruction and every form. -/
def Obligations.RegistersNotWrittenAreUnchanged : Prop :=
  ∀ (i : Instr) (s t : State), exec i s = .next t →
    (writesA i = false → t.a = s.a) ∧ (writesB i = false → t.b = s.b) ∧
    (writesX i = false → t.x = s.x) ∧ (writesY i = false → t.y = s.y)

/-- R26, the columns read: a register an instruction does not read does not matter. Changing it before the instruction
changes nothing after it but that register itself, and that only where the instruction leaves it alone. -/
def Obligations.RegistersNotReadDoNotMatter : Prop :=
  ∀ (i : Instr) (s t : State), exec i s = .next t →
    (readsA i = false → ∀ v, ∃ u, exec i { s with a := v } = .next u ∧ { u with a := t.a } = t ∧
      (u.a = t.a ∨ (u.a = v ∧ t.a = s.a))) ∧
    (readsB i = false → ∀ v, ∃ u, exec i { s with b := v } = .next u ∧ { u with b := t.b } = t ∧
      (u.b = t.b ∨ (u.b = v ∧ t.b = s.b))) ∧
    (readsX i = false → ∀ v, ∃ u, exec i { s with x := v } = .next u ∧ { u with x := t.x } = t ∧
      (u.x = t.x ∨ (u.x = v ∧ t.x = s.x))) ∧
    (readsY i = false → ∀ v, ∃ u, exec i { s with y := v } = .next u ∧ { u with y := t.y } = t ∧
      (u.y = t.y ∨ (u.y = v ∧ t.y = s.y)))

/-- R61: an instruction that stores nothing leaves every byte of memory as it was. -/
def Obligations.NonStoringInstructionsKeepMemory : Prop :=
  ∀ (i : Instr) (s t : State), storeAddress i s = none → exec i s = .next t → ∀ a, t.mem.get a = s.mem.get a

/-- R62: staa and stab, in every mode, change at most the byte at the address they store to, in RAM; A, B, X and Y and
the bytes elsewhere are unchanged whether the store completes or raises, and a store that raises changes no byte. -/
def Obligations.StoresChangeOnlyTheirByte : Prop :=
  ∀ (i : Instr) (s t : State) (ea : Word), storeAddress i s = some ea → exec i s = .next t →
    (∀ a, a ≠ ea.toNat → t.mem.get a = s.mem.get a) ∧
    (ea.toNat < 0x1000 ∨ 0x2000 ≤ ea.toNat → ∀ a, t.mem.get a = s.mem.get a) ∧
    t.a = s.a ∧ t.b = s.b ∧ t.x = s.x ∧ t.y = s.y

/-- R252, R253, R34: an instruction changes the fault state only by raising an error, and then it changes nothing else. -/
def Obligations.FaultChangesOnlyByRaising : Prop :=
  ∀ (i : Instr) (s t : State), exec i s = .next t →
    t.fault = s.fault ∨ ∃ r, t = { s with fault := some r }

/-- R28: an instruction that is not a branch and completes leaves PC = (PC + L) mod 0x10000, L its length. -/
def Obligations.NonBranchAdvancesByItsLength : Prop :=
  ∀ (i : Instr) (s t : State), isBranch i = false → s.fault = none → exec i s = .next t → t.fault = none →
    t.pc.toNat = (s.pc.toNat + i.length) % 0x10000

/-- R254: register transfers, immediate loads, the ALU, the increments and the branches raise no error of their own. -/
def Obligations.RegisterInstructionsNeverRaise : Prop :=
  ∀ (i : Instr) (f : Form) (s : State), i.form = some f → (f.format = .inh ∨ f.format = .imm8 ∨ f.format = .imm16 ∨
      f.format = .br8 ∨ f.format = .br16) →
    ∃ t, exec i s = .next t ∧ t.fault = s.fault ∧ t.mem = s.mem

/-! ### Errors -/

/-- R34: once the fault state is set the core makes no further step, and that is the only reason a step stops; a step
is made only when no record was set, so no step clears one. -/
def Obligations.FaultStateIsTerminal : Prop :=
  (∀ (map : OpcodeMap) (s : State) (r : FaultRecord), s.fault = some r → stepWith map s = .fault (.stopped r)) ∧
  (∀ (map : OpcodeMap) (s : State) (f : Fault), stepWith map s = .fault f → ∃ r, s.fault = some r ∧ f = .stopped r) ∧
  ∀ (map : OpcodeMap) (s t : State), stepWith map s = .next t → s.fault = none

/-- R252: the state after a step that raises is the state before it with the record in the fault state: A, B, X, Y,
memory and PC are as they were. -/
def Obligations.ErrorsArePrecise : Prop :=
  ∀ (map : OpcodeMap) (s t : State) (r : FaultRecord), stepWith map s = .next t → t.fault = some r →
    t.a = s.a ∧ t.b = s.b ∧ t.x = s.x ∧ t.y = s.y ∧ t.pc = s.pc ∧ t.mem = s.mem

/-- R251, R255: the record of each error names what failed. OutOfBounds: PC if the opcode fetch failed, 0x2000 if an
operand fetch did, else the first of the fetched instruction's data addresses that is not backed. ReadOnlyViolation: the
address below 0x1000 that the fetched instruction stores to. UnknownInstruction: the opcode byte at PC, and PC. -/
def Obligations.ErrorRecordsNameTheirCause : Prop :=
  ∀ (map : OpcodeMap) (s t : State) (r : FaultRecord), stepWith map s = .next t → t.fault = some r →
    match r with
    | .outOfBounds addr =>
      (0x2000 ≤ s.pc.toNat ∧ addr = s.pc) ∨
      (s.pc.toNat < 0x2000 ∧ 0x2000 ≤ s.pc.toNat + operandCountAt map (s.mem.get s.pc.toNat) ∧ addr = 0x2000) ∨
      ∃ i, fetchInstr map s = .ok i ∧ (dataAddresses i s).find? (fun a => decide (0x2000 ≤ a.toNat)) = some addr
    | .readOnlyViolation addr => addr.toNat < 0x1000 ∧ ∃ i, fetchInstr map s = .ok i ∧ storeAddress i s = some addr
    | .unknownInstruction op pc => 0x32 ≤ op.toNat ∧ pc = s.pc ∧ op = s.mem.get s.pc.toNat

/-! ### Memory -/

/-- R55, R56, R62: a write that completes is to RAM; it makes the byte at its address read as written and leaves every
other byte as it was. -/
def Obligations.ReadAfterWrite : Prop :=
  ∀ (m m' : Memory) (addr : Word) (v : Byte), m.wf = true → memWrite m addr v = .ok m' →
    memRead m' addr = .ok v ∧ (∀ b : Word, b ≠ addr → memRead m' b = memRead m b) ∧
    0x1000 ≤ addr.toNat ∧ addr.toNat < 0x2000

/-- Every step keeps the canonical, backed memory, from every state that has it, under every opcode map. -/
def Obligations.StepKeepsMemoryCanonical : Prop :=
  ∀ (map : OpcodeMap) (s t : State), s.Inv → stepWith map s = .next t → t.Inv

/-- R52: no step, of any instruction from any state, changes a byte of ROM; every store to ROM, whichever instruction makes
it, raises ReadOnlyViolation at its address and changes nothing else; reads of ROM and fetches from it raise nothing. -/
def Obligations.RomIsReadableAndNeverWritten : Prop :=
  (∀ (map : OpcodeMap) (s t : State), stepWith map s = .next t → ∀ a, a < 0x1000 → t.mem.get a = s.mem.get a) ∧
  (∀ (i : Instr) (s : State) (ea : Word), storeAddress i s = some ea → ea.toNat < 0x1000 →
    exec i s = .next { s with fault := some (.readOnlyViolation ea) }) ∧
  (∀ (m : Memory) (addr : Word), addr.toNat < 0x1000 → memRead m addr = .ok (m.get addr.toNat)) ∧
  ∀ (map : OpcodeMap) (s : State), s.pc.toNat + 2 < 0x1000 → ∃ i, fetchInstr map s = .ok i

/-- R57: if a step changes a byte, that byte is the only one, it is in RAM, the instruction fetched is a `staa` or a `stab`
that stores to exactly that address, and the byte is now A for `staa`, B for `stab`. -/
def Obligations.OnlyAStoreChangesMemory : Prop :=
  ∀ (map : OpcodeMap) (s t : State) (a : Nat), s.Inv → stepWith map s = .next t → t.mem.get a ≠ s.mem.get a →
    0x1000 ≤ a ∧ a < 0x2000 ∧ (∀ b, b ≠ a → t.mem.get b = s.mem.get b) ∧
    ∃ i ea, fetchInstr map s = .ok i ∧ storeAddress i s = some ea ∧ ea.toNat = a ∧
      ((i.form ∈ [some .staaAbs, some .staaX, some .staaY] ∧ t.mem.get a = s.a) ∨
       (i.form ∈ [some .stabAbs, some .stabX, some .stabY] ∧ t.mem.get a = s.b))

/-- R69, R297: the instruction fetch sees every store with no delay. After any `staa` or `stab` to RAM, a fetch at any
address (the one right after the store among them) gives the instruction of the bytes as they are with the stored byte
in place, be it the opcode byte, an operand byte or neither. -/
def Obligations.FetchSeesEveryStoredByte : Prop :=
  ∀ (map : OpcodeMap) (i : Instr) (s t : State) (ea pc : Word) (v : Byte), s.Inv →
    ((i.form ∈ [some .staaAbs, some .staaX, some .staaY] ∧ v = s.a) ∨
     (i.form ∈ [some .stabAbs, some .stabX, some .stabY] ∧ v = s.b)) →
    storeAddress i s = some ea → 0x1000 ≤ ea.toNat → ea.toNat < 0x2000 → exec i s = .next t →
    let byte (a : Nat) : Byte := if a = ea.toNat then v else s.mem.get a
    pc.toNat + operandCountAt map (byte pc.toNat) < 0x2000 →
    fetchInstr map { t with pc := pc } =
      .ok (instrAt map (byte pc.toNat) (byte (pc.toNat + 1)) (byte (pc.toNat + 2)))

/-! ### Idioms -/

/-- R127: `beq16 t` then `bne16 t` jump to t whatever A is, in one or two steps, and change nothing but PC. -/
def Obligations.UnconditionalJumpIdiom : Prop :=
  ∀ (s : State) (t : Word), s.fault = none → s.pc.toNat + 6 ≤ 0x2000 →
    s.mem.get s.pc.toNat = 0x26 → s.mem.get (s.pc.toNat + 1) = lowByte t → s.mem.get (s.pc.toNat + 2) = highByte t →
    s.mem.get (s.pc.toNat + 3) = 0x27 → s.mem.get (s.pc.toNat + 4) = lowByte t → s.mem.get (s.pc.toNat + 5) = highByte t →
    ∃ k, (k = 1 ∨ k = 2) ∧ RunsTo k s { s with pc := t }

/-- R127: `beq16 next`, next the address of the following instruction, changes nothing but PC, whatever A is. -/
def Obligations.NoOperationIdiom : Prop :=
  ∀ s : State, s.fault = none → s.pc.toNat + 3 ≤ 0x2000 →
    s.mem.get s.pc.toNat = 0x26 → s.mem.get (s.pc.toNat + 1) = lowByte (s.pc + 3) →
    s.mem.get (s.pc.toNat + 2) = highByte (s.pc + 3) →
    step s = .next { s with pc := s.pc + 3 }

/-! ### The agents around the core -/

/-- R261, D17: in a legal placement every cell lies in RAM and no cell is both a control and an input-line cell. -/
def Obligations.CellsLieInRamAndAreDisjoint : Prop :=
  ∀ (c : Mmio) (a : Nat), mmioValid c = true →
    (isControlCell c a = true ∨ isInputCell c a = true → 0x1000 ≤ a ∧ a < 0x2000) ∧
    ¬(isControlCell c a = true ∧ isInputCell c a = true)

/-- R67, R262: host writes change no byte outside the memory-mapped cells, and an input-line cell they change holds 0
or 1 afterwards. -/
def Obligations.HostWritesOnlyTheCells : Prop :=
  ∀ (c : Mmio) (m : Memory) (ws : List HostWrite) (a : Nat), m.wf = true → mmioValid c = true →
    (hostWrites c m ws).get a ≠ m.get a →
    (isControlCell c a = true ∨ isInputCell c a = true) ∧
    (isInputCell c a = true → (hostWrites c m ws).get a = 0 ∨ (hostWrites c m ws).get a = 1)

/-- R65: when all host writes of a step land before its first access, the two disciplines are the same step. -/
def Obligations.DisciplinesAgreeOnWritesBeforeTheStep : Prop :=
  ∀ (map : OpcodeMap) (c : Mmio) (ws : List HostWrite) (s : State),
    stepBetweenAccesses map c [ws] s = stepBetweenSteps map c [ws] s

/-- Under either discipline and with any host writes, a step keeps the canonical memory and changes no byte of ROM
(R52, R65, R67). -/
def Obligations.StepWithHostKeepsInvariantAndRom : Prop :=
  ∀ (p : Params) (ws : List (List HostWrite)) (s t : State), s.Inv → stepWithHost p ws s = .next t →
    t.Inv ∧ ∀ a, a < 0x1000 → t.mem.get a = s.mem.get a

/-- R267, R268: a run stops only at an address of STOP_SET with no error raised, ends in a fault only with that record
in its state, and ends refused only in a state without a fault. -/
def Obligations.RunEndsAsItSays : Prop :=
  ∀ (p : Params) (ticks : List Tick) (s : State),
    match drive p ticks s with
    | .stopped t => t.pc ∈ p.stopSet ∧ t.fault = none
    | .faulted t r => t.fault = some r
    | .refused t _ => t.fault = none
    | .cancelled _ => ∃ k ∈ ticks, k.cancel = true
    | .unfinished _ => ∀ k ∈ ticks, k.cancel = false

/-- R265: the debugger's `run` away from PC 0 needs the confirmation; declined it is a no-op, and confirmed it runs from
the state with only PC changed, to 0. -/
def Obligations.DebuggerRunRestartsAtZero : Prop :=
  ∀ (p : Params) (ticks : List Tick) (s : State), s.pc ≠ 0 →
    debugRun p false ticks s = none ∧
    debugRun p true ticks s = some (debugContinue p ticks { s with pc := 0 }) ∧
    debugRun p false ticks { s with pc := 0 } = some (debugContinue p ticks { s with pc := 0 })

/-! ### Images and the assembler -/

/-- R125, R72: the writer's text is read back, and its lines cover the image addresses with no gap and no overlap: each
address is in exactly one segment, whose value is the byte written there, 0 where none was. -/
def Obligations.WrittenImageIsReadBack : Prop :=
  ∀ m : Sparse, m.within 0 0x1000 = true →
    ∃ segs, parseImage (renderImage m) = .ok segs ∧
      ∀ a, a < 0x1000 → ∃ pre seg post, segs = pre ++ seg :: post ∧ seg.first ≤ a ∧ a ≤ seg.last ∧
        seg.value = (m.find a).getD 0 ∧ ∀ q ∈ pre ++ post, a < q.first ∨ q.last < a

/-- R126, under any opcode map. The round trip: the images of an assembled source load to a memory equal to the
assembler's at every written address and 0 elsewhere, in canonical form. The idempotence: assembling the same source
again gives the same two files. -/
def Obligations.AssembledImagesLoadToTheMemory : Prop :=
  ∀ (map : OpcodeMap) (src : List Text) (out : AsmOutput), assembleWith map src = .ok out →
    ∃ m, loadImages (some (romImage out.memory)) (some (ramImage out.memory)) = .ok m ∧ m.wf = true ∧
      (∀ a, m.get a = (out.memory.find a).getD 0) ∧
      ∀ out', assembleWith map src = .ok out' →
        romImage out'.memory = romImage out.memory ∧ ramImage out'.memory = ramImage out.memory

/-- R116, R120, D26: what assembly writes is one byte an address, all of it below 0x2000; a byte for an address already
written, or for one at or above 0x2000, is fatal. -/
def Obligations.AssemblyWritesEachAddressOnce : Prop :=
  (∀ (map : OpcodeMap) (src : List Text) (out : AsmOutput), assembleWith map src = .ok out →
    out.memory.within 0 0x2000 = true) ∧
  ∀ (l : SrcLine) (m : Sparse) (addr : Nat) (v : Byte) (rest : List Byte), m.within 0 0x2000 = true →
    (0x2000 ≤ addr → emitBytes l m addr (v :: rest) = .error (l.error .outOfBounds)) ∧
    ((m.find addr).isSome = true → emitBytes l m addr (v :: rest) = .error (l.error .duplicateDefinition))

/-- R117, R118, R119, R122: the line table lists the instruction lines of the preprocessed source, each once and in order
(the table's form is log 21's choice), at successive addresses from the pass-1 end cursor on. In memory, at its address,
stands the encoding of the instruction the line means: the form its mnemonic and operand shape match, with the value of
its operand token under the final name table (the one pass 2 ends with). A label of the line stands for that address. -/
def Obligations.InstructionLinesAreEncoded : Prop :=
  ∀ (map : OpcodeMap) (src : List Text) (out : AsmOutput), assembleWith map src = .ok out →
    ∃ ls st1 st2, preprocess src = .ok ls ∧
      pass1 { cursor := 0, memory := [], names := [], lines := [] } ls = .ok st1 ∧ pass2 st1 ls = .ok st2 ∧
      out.symbols = st2.names.filter (·.isLabel) ∧
      let code := ls.filter (fun l => (directiveOf (partsOf l.text).word).isNone)
      out.lines.length = code.length ∧
      ∀ (k : Nat) (q : Nat × Nat × Text) (l : SrcLine), out.lines[k]? = some q → code[k]? = some l →
        q.2 = (l.num, l.raw) ∧ (k = 0 → q.1 = st1.cursor) ∧
        ∃ f token value, matchLine l (partsOf l.text) = .ok (f, token) ∧ operandValue l st2.names f token = .ok value ∧
          (∀ q', out.lines[k + 1]? = some q' → q'.1 = q.1 + f.length) ∧
          (∀ name, (partsOf l.text).label = some name → resolve l st2.names name = .ok q.1) ∧
          ∀ j v, (encodeWith map (formInstrOf f value))[j]? = some v → out.memory.find (q.1 + j) = some v

/-- R115, R112, R118: a label is bound to the decimal text of its address, which is the literal of that address: wherever
the label is an operand token later, under any names bound after it, it has the value of the address. -/
def Obligations.LabelTextIsItsAddress : Prop :=
  (∀ n : Nat, parseLiteral (decText n) = some n) ∧
  ∀ (l l' : SrcLine) (table table' more : List Binding) (name : Text) (addr : Nat),
    bindLabel l table (some name) addr = .ok table' →
    lookupName table' name = some (decText addr) ∧ resolve l' (table' ++ more) name = .ok addr
end

