-- ==== Sys2Proof/Laws/Text.lean ====
section
/-! SUPPORT. Numbers written as digits are read back, and texts taken apart where they were put together. -/

namespace Sys2Proof.Machine

/-! ### Digits -/

theorem digitValue_digitChar {d : Nat} (h : d < 16) : digitValue (digitChar d) = some d := by
  have key : ∀ d : Fin 16, digitValue (digitChar d.val) = some d.val := by decide
  exact key ⟨d, h⟩

theorem parseDigitsFrom_snoc (base : Nat) (c : Char) (t : Text) :
    ∀ acc v, parseDigitsFrom base acc t = some v →
      parseDigitsFrom base acc (t ++ [c]) =
        match digitValue c with
        | none => none
        | some d => if d < base then some (v * base + d) else none := by
  induction t with
  | nil =>
    intro acc v h
    have h : some acc = some v := h
    injection h with h
    subst h
    rfl
  | cons x t ih =>
    intro acc v h
    simp only [List.cons_append, parseDigitsFrom] at h ⊢
    cases hx : digitValue x with
    | none => rw [hx] at h; cases h
    | some d =>
      rw [hx] at h
      dsimp only at h ⊢
      split at h
      · rename_i hd
        rw [if_pos hd, ih _ _ h]
      · cases h

theorem digitsText_ne_nil (base fuel n : Nat) : digitsText base fuel n ≠ [] := by
  cases fuel with
  | zero => simp [digitsText]
  | succ fuel => simp only [digitsText]; split <;> simp

theorem parse_digitsText_from {base : Nat} (h2 : 2 ≤ base) (h16 : base ≤ 16) (fuel : Nat) :
    ∀ n, n ≤ fuel → parseDigitsFrom base 0 (digitsText base fuel n) = some n := by
  induction fuel with
  | zero =>
    intro n hn
    obtain rfl : n = 0 := by omega
    have : digitValue (digitChar 0) = some 0 := digitValue_digitChar (by omega)
    simp only [digitsText, parseDigitsFrom, Nat.zero_mod, this]
    rw [if_pos (by omega)]
    simp
  | succ fuel ih =>
    intro n hn
    simp only [digitsText]
    split
    · rename_i hb
      simp only [parseDigitsFrom, digitValue_digitChar (show n < 16 by omega), if_pos hb]
      simp
    · rename_i hb
      have hdiv : n / base ≤ fuel := by
        have := Nat.div_lt_self (show 0 < n by omega) (show 1 < base by omega)
        omega
      have hmod := Nat.mod_lt n (show 0 < base by omega)
      rw [parseDigitsFrom_snoc base _ _ _ _ (ih _ hdiv), digitValue_digitChar (by omega)]
      dsimp only
      rw [if_pos hmod, Nat.div_add_mod']

/-- A number written in a base of 2 to 16 is read back. -/
theorem parse_digitsText {base : Nat} (h2 : 2 ≤ base) (h16 : base ≤ 16) (n : Nat) :
    parseDigits base (digitsText base n n) = some n := by
  rw [parseDigits, if_neg (digitsText_ne_nil base n n), parse_digitsText_from h2 h16 n n (Nat.le_refl n)]

/-- Every character of a written number is a digit. -/
theorem digitsText_digits {base : Nat} (h0 : 0 < base) (h16 : base ≤ 16) (fuel : Nat) :
    ∀ n, ∀ c ∈ digitsText base fuel n, ∃ d, d < 16 ∧ c = digitChar d := by
  induction fuel with
  | zero =>
    intro n c hc
    have := Nat.mod_lt n h0
    simp only [digitsText, List.mem_singleton] at hc
    exact ⟨n % base, by omega, hc⟩
  | succ fuel ih =>
    intro n c hc
    have := Nat.mod_lt n h0
    simp only [digitsText] at hc
    split at hc
    · rw [List.mem_singleton] at hc
      exact ⟨n, by omega, hc⟩
    · rw [List.mem_append, List.mem_singleton] at hc
      rcases hc with hc | hc
      · exact ih _ c hc
      · exact ⟨n % base, by omega, hc⟩

/-- A character that is no digit does not occur in a written number. -/
theorem not_mem_hexText {c : Char} (h : digitValue c = none) (n : Nat) : c ∉ hexText n := by
  intro hc
  obtain ⟨d, hd, rfl⟩ := digitsText_digits (by omega) (by omega) n n c hc
  rw [digitValue_digitChar hd] at h
  cases h

/-! ### Splitting and trimming -/

theorem splitFirst_append {c : Char} {l r : Text} (h : c ∉ l) : splitFirst c (l ++ c :: r) = some (l, r) := by
  induction l with
  | nil => simp [splitFirst]
  | cons d l ih =>
    simp only [List.mem_cons, not_or] at h
    simp only [List.cons_append, splitFirst, if_neg (Ne.symm h.1), ih h.2, Option.map_some]

theorem dropLast?_snoc (c : Char) (t : Text) : dropLast? c (t ++ [c]) = some t := by
  simp [dropLast?]

theorem dropWhile_none {p : Char → Bool} {t : Text} (h : ∀ c ∈ t, p c = false) : t.dropWhile p = t := by
  cases t with
  | nil => rfl
  | cons c t => rw [List.dropWhile_cons_of_neg (by simp [h c (by simp)])]

theorem trimLeft_none {p : Char → Bool} {t : Text} (h : ∀ c ∈ t, p c = false) : trimLeft p t = t := dropWhile_none h

theorem trimRight_none {p : Char → Bool} {t : Text} (h : ∀ c ∈ t, p c = false) : trimRight p t = t := by
  rw [trimRight, dropWhile_none (fun c hc => h c (List.mem_reverse.mp hc)), List.reverse_reverse]

theorem trimRight_snoc {p : Char → Bool} {c : Char} (hc : p c = true) (t : Text) : trimRight p (t ++ [c]) = trimRight p t := by
  simp [trimRight, List.dropWhile_cons_of_pos hc]

theorem trimBoth_none {p : Char → Bool} {t : Text} (h : ∀ c ∈ t, p c = false) : trimBoth p t = t := by
  rw [trimBoth, trimLeft_none h, trimRight_none h]

theorem splitAll_ne_nil (c : Char) (t : Text) : splitAll c t ≠ [] := by
  cases t with
  | nil => simp [splitAll]
  | cons d t =>
    simp only [splitAll]
    split
    · simp
    · split <;> simp

theorem splitAll_append {c : Char} {l : Text} (h : c ∉ l) (r : Text) : splitAll c (l ++ c :: r) = l :: splitAll c r := by
  induction l with
  | nil => simp [splitAll]
  | cons d l ih =>
    simp only [List.mem_cons, not_or] at h
    simp only [List.cons_append, splitAll, if_neg (Ne.symm h.1), ih h.2]

/-- Lines that were joined are split again, with an empty rest. -/
theorem splitLines_joinLines {ls : List Text} (h : ∀ l ∈ ls, '\n' ∉ l) : splitLines (joinLines ls) = ls ++ [[]] := by
  induction ls with
  | nil => rfl
  | cons l ls ih =>
    have : joinLines (l :: ls) = l ++ '\n' :: joinLines ls := by simp [joinLines]
    rw [this, splitLines, splitAll_append (h l (by simp))]
    have := ih (fun l' hl' => h l' (by simp [hl']))
    rw [splitLines] at this
    rw [this, List.cons_append]

end Sys2Proof.Machine
end

