-- ==== Sys2Proof/Laws/Assembler.lean ====
section
/-! SUPPORT. What writing bytes into a sparse memory and binding a name can do, one lemma each. -/

namespace Sys2Proof.Machine

namespace Sparse

theorem within_cons {lo hi a : Nat} {v : Byte} {rest : Sparse} :
    within lo hi ((a, v) :: rest) = true ↔ lo ≤ a ∧ a < hi ∧ within (a + 1) hi rest = true := by
  simp [within, and_assoc]

/-- Nothing is written below the start of a sparse memory. -/
theorem find_below {m : Sparse} : ∀ {lo hi a : Nat}, m.within lo hi = true → a < lo → m.find a = none := by
  induction m with
  | nil => intros; rfl
  | cons q rest ih =>
    obtain ⟨k, v⟩ := q
    intro lo hi a h ha
    rw [within_cons] at h
    rw [find, if_neg (by omega), ih h.2.2 (by omega)]

/-- Nothing is written at or above the end of a sparse memory. -/
theorem find_above {m : Sparse} : ∀ {lo hi a : Nat}, m.within lo hi = true → hi ≤ a → m.find a = none := by
  induction m with
  | nil => intros; rfl
  | cons q rest ih =>
    obtain ⟨k, v⟩ := q
    intro lo hi a h ha
    rw [within_cons] at h
    rw [find, if_neg (by omega), ih h.2.2 ha]

/-- A byte that is put goes to an address not written before, and changes nothing else. -/
theorem put_some {hi : Nat} {m : Sparse} : ∀ {lo a : Nat} {v : Byte} {m' : Sparse}, m.within lo hi = true → lo ≤ a → a < hi →
    m.put a v = some m' →
    m'.within lo hi = true ∧ m.find a = none ∧ ∀ b, m'.find b = if b = a then some v else m.find b := by
  induction m with
  | nil =>
    intro lo a v m' _ h1 h2 h
    cases h
    exact ⟨by simp [within, h1, h2], rfl, fun b => by simp [find, eq_comm]⟩
  | cons q rest ih =>
    obtain ⟨k, w⟩ := q
    intro lo a v m' hw h1 h2 h
    rw [within_cons] at hw
    rw [put] at h
    split at h
    · cases h
      refine ⟨?_, ?_, fun b => ?_⟩
      · rw [within_cons, within_cons]
        exact ⟨h1, h2, by omega, hw.2⟩
      · rw [find, if_neg (by omega), find_below hw.2.2 (by omega)]
      · rw [find]
        by_cases hb : b = a
        · rw [if_pos hb, if_pos hb.symm]
        · rw [if_neg hb, if_neg (fun e => hb e.symm)]
    · split at h
      · cases h
      · cases hp : put rest a v with
        | none => rw [hp] at h; cases h
        | some r =>
          rw [hp] at h
          cases h
          obtain ⟨g1, g2, g3⟩ := ih hw.2.2 (by omega) h2 hp
          refine ⟨?_, ?_, fun b => ?_⟩
          · rw [within_cons]
            exact ⟨hw.1, hw.2.1, g1⟩
          · rw [find, if_neg (by omega), g2]
          · rw [find, find, g3]
            by_cases hb : b = a
            · subst hb
              rw [if_pos rfl, if_neg (by omega), if_pos rfl]
            · rw [if_neg hb, if_neg hb]

end Sparse

/-- Bytes that are written stand at successive addresses, and every byte written before stays. -/
theorem emitBytes_ok {l : SrcLine} {bytes : List Byte} : ∀ {m m' : Sparse} {addr : Nat}, m.within 0 0x2000 = true →
    emitBytes l m addr bytes = .ok m' →
    m'.within 0 0x2000 = true ∧ (∀ b v, m.find b = some v → m'.find b = some v) ∧
    ∀ k v, bytes[k]? = some v → m'.find (addr + k) = some v := by
  induction bytes with
  | nil =>
    intro m m' addr hw h
    cases h
    exact ⟨hw, fun _ _ h => h, fun k v h => by simp at h⟩
  | cons w rest ih =>
    intro m m' addr hw h
    rw [emitBytes] at h
    split at h
    · cases h
    · cases hp : m.put addr w with
      | none => rw [hp] at h; cases h
      | some m1 =>
        rw [hp] at h
        obtain ⟨g1, g2, g3⟩ := Sparse.put_some hw (by omega) (by omega) hp
        obtain ⟨f1, f2, f3⟩ := ih g1 h
        refine ⟨f1, fun b v hb => f2 b v ?_, fun k v hk => ?_⟩
        · rw [g3, if_neg (by rintro rfl; rw [g2] at hb; cases hb)]
          exact hb
        · cases k with
          | zero =>
            simp only [List.getElem?_cons_zero, Option.some.injEq] at hk
            subst hk
            exact f2 _ _ (by rw [g3, Nat.add_zero, if_pos rfl])
          | succ k =>
            have := f3 k v (by simpa using hk)
            rwa [show addr + (k + 1) = addr + 1 + k by omega]

/-- A name that is bound was not bound before, and is put last. -/
theorem bindName_ok {l : SrcLine} {table table' : List Binding} {b : Binding} (h : bindName l table b = .ok table') :
    table' = table ++ [b] ∧ lookupName table b.name = none := by
  unfold bindName at h
  split at h
  · cases h
  · split at h
    · cases h
    · rename_i hb
      cases h
      refine ⟨rfl, ?_⟩
      cases hl : lookupName table b.name with
      | none => rfl
      | some t => rw [hl] at hb; exact absurd rfl hb

/-- Binding a line's label leaves the names bound before in front. -/
theorem bindLabel_ok {l : SrcLine} {table table' : List Binding} {label : Option Text} {addr : Nat}
    (h : bindLabel l table label addr = .ok table') : ∃ more, table' = table ++ more := by
  cases label with
  | none => cases h; exact ⟨[], (List.append_nil _).symm⟩
  | some name => exact ⟨_, (bindName_ok h).1⟩

/-- A bound name keeps its text whatever is bound after it. -/
theorem lookupName_append {table : List Binding} {name t : Text} (h : lookupName table name = some t) (more : List Binding) :
    lookupName (table ++ more) name = some t := by
  unfold lookupName at h ⊢
  rw [List.find?_append]
  cases hf : table.find? (fun b => decide (b.name = name)) with
  | none => rw [hf] at h; cases h
  | some b => rw [hf] at h; exact h

end Sys2Proof.Machine
end

