-- ==== Sys2Proof/Laws/Decode.lean ====
section
/-! SUPPORT. The bytes of a 16-bit value, what an opcode map gives, and how an instruction's form, operand bytes and
opcode byte determine it. -/

namespace Sys2Proof

/-! ### Bytes of a 16-bit value -/

theorem concat16_toNat (hi lo : Byte) : (concat16 hi lo).toNat = hi.toNat * 256 + lo.toNat := by
  have h1 := hi.isLt
  have h2 := lo.isLt
  rw [concat16, BitVec.toNat_ofNat, Nat.mod_eq_of_lt (by omega)]

theorem lowByte_toNat (w : Word) : (lowByte w).toNat = w.toNat % 256 := by
  rw [lowByte, BitVec.toNat_ofNat]

theorem highByte_toNat (w : Word) : (highByte w).toNat = w.toNat / 256 := by
  have h := w.isLt
  rw [highByte, BitVec.toNat_ofNat, Nat.mod_eq_of_lt (by omega)]

@[simp] theorem concat16_bytes (w : Word) : concat16 (highByte w) (lowByte w) = w := by
  apply BitVec.eq_of_toNat_eq
  rw [concat16_toNat, lowByte_toNat, highByte_toNat]
  omega

@[simp] theorem lowByte_concat16 (hi lo : Byte) : lowByte (concat16 hi lo) = lo := by
  apply BitVec.eq_of_toNat_eq
  rw [lowByte_toNat, concat16_toNat]
  have := lo.isLt
  omega

@[simp] theorem highByte_concat16 (hi lo : Byte) : highByte (concat16 hi lo) = hi := by
  apply BitVec.eq_of_toNat_eq
  rw [highByte_toNat, concat16_toNat]
  have := lo.isLt
  omega

/-! ### Opcode maps -/

theorem mem_allForms (f : Form) : f ∈ allForms := by
  cases f <;> decide

theorem OpcodeMap.valid_length {m : OpcodeMap} (h : m.valid = true) : m.length = 0x32 := by
  simp only [OpcodeMap.valid, Bool.and_eq_true, decide_eq_true_eq] at h
  exact h.1

theorem OpcodeMap.valid_count {m : OpcodeMap} (h : m.valid = true) (f : Form) : m.count (some f) = 1 := by
  simp only [OpcodeMap.valid, Bool.and_eq_true, List.all_eq_true, decide_eq_true_eq] at h
  exact h.2 f (mem_allForms f)

theorem OpcodeMap.formAt_above {m : OpcodeMap} {op : Byte} (h : 0x32 ≤ op.toNat) : m.formAt op = none := by
  rw [OpcodeMap.formAt, if_neg (by omega)]

/-- An opcode byte that a map gives a form lies in range. -/
theorem OpcodeMap.formAt_lt {m : OpcodeMap} {op : Byte} {f : Form} (h : m.formAt op = some f) : op.toNat < 0x32 := by
  by_contra hc
  rw [OpcodeMap.formAt_above (by omega)] at h
  cases h

/-- Where an element occurs only once, only its first index holds it. -/
theorem idxOf_unique {α : Type} [BEq α] [LawfulBEq α] (l : List α) (a : α) :
    ∀ i, l[i]? = some a → l.count a = 1 → l.idxOf a = i := by
  induction l with
  | nil => intro i h; simp at h
  | cons b rest ih =>
    intro i h hc
    by_cases hb : b = a
    · subst hb
      rw [List.count_cons_self] at hc
      have h0 : rest.count b = 0 := by omega
      cases i with
      | zero => simp
      | succ i =>
        have : b ∈ rest := List.mem_of_getElem? (by simpa using h)
        exact absurd this (List.count_eq_zero.mp h0)
    · rw [List.count_cons_of_ne hb] at hc
      cases i with
      | zero => simp at h; exact absurd h hb
      | succ i =>
        rw [List.idxOf_cons_ne _ hb, ih i (by simpa using h) hc]

/-- Under a valid map the code of a form is where the map has that form. -/
theorem OpcodeMap.codeOf_of_formAt {m : OpcodeMap} (h : m.valid = true) {op : Byte} {f : Form} (hf : m.formAt op = some f) :
    m.codeOf f = op := by
  have hlt := OpcodeMap.formAt_lt hf
  rw [OpcodeMap.formAt, if_pos hlt] at hf
  have hget : m[op.toNat]? = some (some f) := by
    cases hm : m[op.toNat]? with
    | none => rw [hm] at hf; cases hf
    | some o => rw [hm] at hf; simp only [Option.join] at hf; rw [← hf]; rfl
  rw [OpcodeMap.codeOf, idxOf_unique m (some f) op.toNat hget (OpcodeMap.valid_count h f)]
  exact BitVec.eq_of_toNat_eq (by rw [BitVec.toNat_ofNat, Nat.mod_eq_of_lt op.isLt])

/-- Under a valid map the map has each form at its code. -/
theorem OpcodeMap.formAt_codeOf {m : OpcodeMap} (h : m.valid = true) (f : Form) : m.formAt (m.codeOf f) = some f := by
  have hmem : some f ∈ m := List.count_pos_iff.mp (by rw [OpcodeMap.valid_count h f]; omega)
  have hidx : m.idxOf (some f) < m.length := List.idxOf_lt_length_iff.mpr hmem
  have hlen := OpcodeMap.valid_length h
  have hcode : (m.codeOf f).toNat = m.idxOf (some f) := by
    rw [OpcodeMap.codeOf, BitVec.toNat_ofNat, Nat.mod_eq_of_lt (by omega)]
  rw [OpcodeMap.formAt, hcode, if_pos (by omega), List.getElem?_eq_getElem hidx, List.getElem_idxOf]
  rfl

theorem defaultMap_valid : defaultMap.valid = true := by decide

/-! ### Instructions, forms and bytes -/

/-- An instruction made from operand bytes has the form it was made from. -/
@[simp] theorem Form.instr_form (f : Form) (b1 b2 : Byte) : (f.instr b1 b2).form = some f := by
  cases f <;> rfl

/-- A documented instruction is the one its form makes of its operand bytes. -/
theorem Instr.eq_instr {i : Instr} {f : Form} (h : i.form = some f) :
    i = f.instr (i.operandBytes[0]?.getD 0) (i.operandBytes[1]?.getD 0) := by
  cases i <;> simp only [Instr.form, Option.some.injEq, reduceCtorEq] at h <;> subst h <;>
    simp [Form.instr, Instr.operandBytes]

/-- The operand bytes of an instruction made from operand bytes are those its format has. -/
theorem Form.instr_operandBytes (f : Form) (b1 b2 : Byte) :
    (f.instr b1 b2).operandBytes = ([b1, b2] : List Byte).take f.format.operandCount := by
  cases f <;> simp [Form.instr, Instr.operandBytes, Form.format, Format.operandCount]

theorem Instr.operandBytes_length {i : Instr} {f : Form} (h : i.form = some f) :
    i.operandBytes.length = f.format.operandCount := by
  cases i <;> simp only [Instr.form, Option.some.injEq, reduceCtorEq] at h <;> subst h <;> rfl

theorem Form.operandCount_le (f : Form) : f.format.operandCount ≤ 2 := by
  cases f <;> decide

/-- The opcode byte of a documented instruction is its form's code. -/
theorem Instr.opcode_of_form {m : OpcodeMap} {i : Instr} {f : Form} (h : i.form = some f) : i.opcode m = m.codeOf f := by
  cases i <;> simp only [Instr.form, Option.some.injEq, reduceCtorEq] at h <;> subst h <;> rfl

/-- An instruction without a documented form is one of the two kinds of opcode byte. -/
theorem Instr.form_none {i : Instr} (h : i.form = none) : (∃ op, i = .undocumented op) ∨ ∃ op, i = .illegal op := by
  cases i <;> simp [Instr.form] at h ⊢

/-- What an opcode byte stands for. -/
theorem instrAt_cases (m : OpcodeMap) (op b1 b2 : Byte) :
    (∃ f, m.formAt op = some f ∧ instrAt m op b1 b2 = f.instr b1 b2) ∨
    (m.formAt op = none ∧ op.toNat < 0x32 ∧ instrAt m op b1 b2 = .undocumented op) ∨
    (m.formAt op = none ∧ 0x32 ≤ op.toNat ∧ instrAt m op b1 b2 = .illegal op) := by
  unfold instrAt
  cases h : m.formAt op with
  | some f => exact .inl ⟨f, rfl, rfl⟩
  | none =>
    by_cases hlt : op.toNat < 0x32
    · exact .inr (.inl ⟨rfl, hlt, by simp [hlt]⟩)
    · exact .inr (.inr ⟨rfl, by omega, by simp [hlt]⟩)

theorem operandCountAt_le (m : OpcodeMap) (op : Byte) : operandCountAt m op ≤ 2 := by
  unfold operandCountAt
  cases m.formAt op with
  | some f => exact f.operandCount_le
  | none => exact Nat.zero_le 2

/-- The length of what an opcode byte stands for is one more than its number of operand bytes. -/
theorem instrAt_length (m : OpcodeMap) (op b1 b2 : Byte) : (instrAt m op b1 b2).length = operandCountAt m op + 1 := by
  unfold operandCountAt
  rcases instrAt_cases m op b1 b2 with ⟨f, hf, h⟩ | ⟨hf, _, h⟩ | ⟨hf, _, h⟩ <;>
    rw [h, hf]
  · rw [Instr.length, Form.instr_form]; rfl
  · rfl
  · rfl

/-- Everything the decoder can answer on a list that begins with an opcode byte. -/
theorem decodeWith_cons (m : OpcodeMap) (op : Byte) (rest : List Byte) :
    decodeWith m (op :: rest) =
      if operandCountAt m op ≤ rest.length then
        .ok (instrAt m op (((rest.take (operandCountAt m op))[0]?).getD 0) (((rest.take (operandCountAt m op))[1]?).getD 0),
          rest.drop (operandCountAt m op))
      else .error (.truncated op (operandCountAt m op)) := by
  have h := operandCountAt_le m op
  simp only [decodeWith]
  generalize operandCountAt m op = n at h ⊢
  match n, h with
  | 0, _ => simp
  | 1, _ => cases rest <;> simp
  | 2, _ =>
    match rest with
    | [] => simp
    | [_] => simp
    | _ :: _ :: _ => simp

/-- A form depends only on the operand bytes its format has. -/
theorem Form.instr_congr {b1 b2 c1 c2 : Byte} (f : Form) (h1 : 1 ≤ f.format.operandCount → b1 = c1)
    (h2 : 2 ≤ f.format.operandCount → b2 = c2) : f.instr b1 b2 = f.instr c1 c2 := by
  cases f <;> simp [Form.format, Format.operandCount] at h1 h2 <;> simp_all [Form.instr]

/-- An instruction depends only on the operand bytes its opcode has. -/
theorem instrAt_congr {m : OpcodeMap} {op b1 b2 c1 c2 : Byte} (h1 : 1 ≤ operandCountAt m op → b1 = c1)
    (h2 : 2 ≤ operandCountAt m op → b2 = c2) : instrAt m op b1 b2 = instrAt m op c1 c2 := by
  rw [instrAt, instrAt]
  cases hf : m.formAt op with
  | none => rfl
  | some f =>
    rw [operandCountAt, hf] at h1 h2
    exact f.instr_congr h1 h2

end Sys2Proof
end

