-- ==== Sys2Proof/Laws/Memory.lean ====
section
/-! SUPPORT. The laws of memory as data (`Memory.get`, `Memory.set`, `Memory.wf`) and of the core's accesses. -/

namespace Sys2Proof.Machine

@[simp] theorem unlistedByte_eq : unlistedByte = 0 := rfl

namespace Memory

@[simp] theorem get_nil (a : Nat) : get [] a = 0 := rfl

theorem get_cons (k : Nat) (v : Byte) (rest : Memory) (a : Nat) :
    get ((k, v) :: rest) a = if k = a then v else get rest a := rfl

theorem wfFrom_cons {lo k : Nat} {v : Byte} {rest : Memory} :
    wfFrom lo ((k, v) :: rest) = true ↔ lo ≤ k ∧ k < 0x2000 ∧ v ≠ 0 ∧ wfFrom (k + 1) rest = true := by
  rw [wfFrom, Bool.and_eq_true, Bool.and_eq_true, Bool.and_eq_true, decide_eq_true_iff, decide_eq_true_iff,
    decide_eq_true_iff, and_assoc, and_assoc]
  exact Iff.rfl

theorem wfFrom_mono {lo lo' : Nat} {m : Memory} (h : wfFrom lo m = true) (hl : lo' ≤ lo) : wfFrom lo' m = true := by
  cases m with
  | nil => rfl
  | cons c rest =>
    obtain ⟨k, v⟩ := c
    rw [wfFrom_cons] at h ⊢
    exact ⟨by omega, h.2⟩

/-- A canonical memory lists nothing below its start. -/
theorem get_below {m : Memory} : ∀ {lo a : Nat}, wfFrom lo m = true → a < lo → get m a = 0 := by
  induction m with
  | nil => intros; rfl
  | cons c rest ih =>
    obtain ⟨k, v⟩ := c
    intro lo a h ha
    rw [wfFrom_cons] at h
    rw [get_cons, if_neg (by omega), ih h.2.2.2 (by omega)]

/-- A canonical memory lists nothing that is not backed. -/
theorem get_above {m : Memory} : ∀ {lo a : Nat}, wfFrom lo m = true → 0x2000 ≤ a → get m a = 0 := by
  induction m with
  | nil => intros; rfl
  | cons c rest ih =>
    obtain ⟨k, v⟩ := c
    intro lo a h ha
    rw [wfFrom_cons] at h
    rw [get_cons, if_neg (by omega), ih h.2.2.2 ha]

/-- Read after write, elsewhere. -/
theorem get_set_other (m : Memory) {a b : Nat} (v : Byte) (h : b ≠ a) : get (set m a v) b = get m b := by
  induction m with
  | nil => simp only [set]; split <;> simp [get_cons, h.symm]
  | cons c rest ih =>
    obtain ⟨k, w⟩ := c
    simp only [set]
    split
    · split
      · rfl
      · simp [get_cons, h.symm]
    · split
      · rename_i _ hk
        subst hk
        split <;> simp [get_cons, h.symm]
      · simp [get_cons, ih]

theorem get_set_self_from {m : Memory} : ∀ {lo : Nat} (a : Nat) (v : Byte), wfFrom lo m = true → get (set m a v) a = v := by
  induction m with
  | nil => intro lo a v _; simp only [set]; split <;> simp_all [get_cons]
  | cons c rest ih =>
    obtain ⟨k, w⟩ := c
    intro lo a v h
    rw [wfFrom_cons] at h
    simp only [set]
    split
    · rename_i hk
      split
      · rename_i hv
        rw [get_cons, if_neg (by omega), get_below h.2.2.2 (by omega), hv]; rfl
      · simp [get_cons]
    · split
      · rename_i _ hk
        split
        · rename_i hv
          rw [get_below h.2.2.2 (by omega), hv]; rfl
        · simp [get_cons]
      · rename_i hk
        rw [get_cons, if_neg (fun e => hk e.symm), ih a v h.2.2.2]

/-- Read after write, at the same address. -/
theorem get_set_self {m : Memory} (a : Nat) (v : Byte) (h : m.wf = true) : get (set m a v) a = v :=
  get_set_self_from a v h

/-- Read after write, at any address. -/
theorem get_set {m : Memory} (a b : Nat) (v : Byte) (h : m.wf = true) : get (set m a v) b = if b = a then v else get m b := by
  split
  · rename_i hb; subst hb; exact get_set_self b v h
  · rename_i hb; exact get_set_other m v hb

theorem wfFrom_set {m : Memory} :
    ∀ {lo a : Nat} (v : Byte), wfFrom lo m = true → lo ≤ a → a < 0x2000 → wfFrom lo (set m a v) = true := by
  induction m with
  | nil => intro lo a v _ h1 h2; simp only [set]; split <;> simp_all [wfFrom]
  | cons c rest ih =>
    obtain ⟨k, w⟩ := c
    intro lo a v h h1 h2
    rw [wfFrom_cons] at h
    simp only [set]
    split
    · split
      · rw [wfFrom_cons]; exact h
      · rename_i hv
        rw [wfFrom_cons, wfFrom_cons]
        exact ⟨h1, h2, hv, by omega, h.2⟩
    · split
      · split
        · exact wfFrom_mono h.2.2.2 (by omega)
        · rename_i hv
          rw [wfFrom_cons]
          rename_i _ hk
          subst hk
          exact ⟨h1, h2, hv, h.2.2.2⟩
      · rw [wfFrom_cons]
        exact ⟨h.1, h.2.1, h.2.2.1, ih v h.2.2.2 (by omega) h2⟩

/-- A write to a backed address keeps the canonical form. -/
theorem wf_set {m : Memory} {a : Nat} (v : Byte) (h : m.wf = true) (ha : a < 0x2000) : (set m a v).wf = true :=
  wfFrom_set v h (Nat.zero_le _) ha

/-- Canonical memories that read the same are the same list. -/
theorem ext_from {m : Memory} : ∀ {m' : Memory} {lo : Nat}, wfFrom lo m = true → wfFrom lo m' = true →
    (∀ a, get m a = get m' a) → m = m' := by
  induction m with
  | nil =>
    intro m' lo _ h' he
    cases m' with
    | nil => rfl
    | cons c rest =>
      obtain ⟨k, v⟩ := c
      rw [wfFrom_cons] at h'
      exact absurd (by simpa [get_cons] using (he k).symm) h'.2.2.1
  | cons c rest ih =>
    obtain ⟨k, v⟩ := c
    intro m' lo h h' he
    rw [wfFrom_cons] at h
    cases m' with
    | nil => exact absurd (by simpa [get_cons] using he k) h.2.2.1
    | cons c' rest' =>
      obtain ⟨k', v'⟩ := c'
      rw [wfFrom_cons] at h'
      have hk : k = k' := by
        rcases Nat.lt_trichotomy k k' with hlt | heq | hgt
        · have := he k
          rw [get_cons, if_pos rfl, get_cons, if_neg (by omega), get_below h'.2.2.2 (by omega)] at this
          exact absurd this h.2.2.1
        · exact heq
        · have := he k'
          rw [get_cons, if_neg (by omega), get_below h.2.2.2 (by omega), get_cons, if_pos rfl] at this
          exact absurd this.symm h'.2.2.1
      subst hk
      have hv : v = v' := by simpa [get_cons] using he k
      subst hv
      have hrest : rest = rest' := by
        refine ih h.2.2.2 h'.2.2.2 (fun a => ?_)
        by_cases ha : k = a
        · subst ha
          rw [get_below h.2.2.2 (by omega), get_below h'.2.2.2 (by omega)]
        · simpa [get_cons, ha] using he a
      rw [hrest]

theorem ext_wf {m m' : Memory} (h : m.wf = true) (h' : m'.wf = true) (he : ∀ a, get m a = get m' a) : m = m' :=
  ext_from h h' he

end Memory

/-! ### The core's accesses -/

theorem memRead_backed {m : Memory} {a : Word} (h : a.toNat < 0x2000) : memRead m a = .ok (m.get a.toNat) := by
  rw [memRead, if_neg (by omega)]

theorem memRead_unbacked {m : Memory} {a : Word} (h : 0x2000 ≤ a.toNat) : memRead m a = .error (.outOfBounds a) := by
  rw [memRead, if_pos h]

theorem memWrite_rom {m : Memory} {a : Word} {v : Byte} (h : a.toNat < 0x1000) :
    memWrite m a v = .error (.readOnlyViolation a) := by
  rw [memWrite, if_pos h]

theorem memWrite_ram {m : Memory} {a : Word} {v : Byte} (h : 0x1000 ≤ a.toNat) (h' : a.toNat < 0x2000) :
    memWrite m a v = .ok (m.set a.toNat v) := by
  rw [memWrite, if_neg (by omega), if_neg (by omega)]

theorem memWrite_unbacked {m : Memory} {a : Word} {v : Byte} (h : 0x2000 ≤ a.toNat) :
    memWrite m a v = .error (.outOfBounds a) := by
  rw [memWrite, if_neg (by omega), if_pos h]

/-- Everything a read can do. -/
theorem memRead_cases (m : Memory) (a : Word) :
    (a.toNat < 0x2000 ∧ memRead m a = .ok (m.get a.toNat)) ∨
    (0x2000 ≤ a.toNat ∧ memRead m a = .error (.outOfBounds a)) := by
  rcases Nat.lt_or_ge a.toNat 0x2000 with h | h
  · exact .inl ⟨h, memRead_backed h⟩
  · exact .inr ⟨h, memRead_unbacked h⟩

/-- Everything a write can do. -/
theorem memWrite_cases (m : Memory) (a : Word) (v : Byte) :
    (a.toNat < 0x1000 ∧ memWrite m a v = .error (.readOnlyViolation a)) ∨
    (0x1000 ≤ a.toNat ∧ a.toNat < 0x2000 ∧ memWrite m a v = .ok (m.set a.toNat v)) ∨
    (0x2000 ≤ a.toNat ∧ memWrite m a v = .error (.outOfBounds a)) := by
  rcases Nat.lt_or_ge a.toNat 0x1000 with h | h
  · exact .inl ⟨h, memWrite_rom h⟩
  · rcases Nat.lt_or_ge a.toNat 0x2000 with h' | h'
    · exact .inr (.inl ⟨h, h', memWrite_ram h h'⟩)
    · exact .inr (.inr ⟨h', memWrite_unbacked h'⟩)

/-- Everything a 16-bit read can do: both bytes, or the error of the first read that fails. -/
theorem memRead16From_cases (m1 m2 : Memory) (a : Word) :
    (a.toNat < 0x1FFF ∧ memRead16From m1 m2 a = .ok (concat16 (m2.get (a.toNat + 1)) (m1.get a.toNat))) ∨
    (a.toNat = 0x1FFF ∧ memRead16From m1 m2 a = .error (.outOfBounds 0x2000)) ∨
    (0x2000 ≤ a.toNat ∧ memRead16From m1 m2 a = .error (.outOfBounds a)) := by
  rcases Nat.lt_trichotomy a.toNat 0x1FFF with h | h | h
  · have h1 : (a + 1).toNat = a.toNat + 1 := by bv_omega
    refine .inl ⟨h, ?_⟩
    rw [memRead16From, memRead_backed (by omega), memRead_backed (a := a + 1) (by omega), h1]
  · have h1 : a + 1 = 0x2000 := by bv_omega
    refine .inr (.inl ⟨h, ?_⟩)
    rw [memRead16From, memRead_backed (by omega), h1]
    rfl
  · refine .inr (.inr ⟨h, ?_⟩)
    rw [memRead16From, memRead_unbacked h]

/-! ### Placing bytes -/

/-- Placing bytes from outside keeps the canonical form. -/
theorem wf_placeBytes (bytes : List Byte) : ∀ {m : Memory} (a : Word), m.wf = true → (placeBytes m a bytes).wf = true := by
  induction bytes with
  | nil => intro m a h; exact h
  | cons v rest ih =>
    intro m a h
    simp only [placeBytes]
    split
    · rename_i ha
      exact ih _ (Memory.wf_set v h ha)
    · exact ih _ h

end Sys2Proof.Machine
end

