-- ==== Sys2Proof/Laws/State.lean ====
section
/-! SUPPORT. What each update of the state does to each field: one lemma per field per update, so that no proof unfolds
a record update. -/

namespace Sys2Proof.Machine.State

/-! ### `setA` -/

@[simp] theorem setA_a (s : State) (v : Byte) : (s.setA v).a = v := rfl
@[simp] theorem setA_b (s : State) (v : Byte) : (s.setA v).b = s.b := rfl
@[simp] theorem setA_x (s : State) (v : Byte) : (s.setA v).x = s.x := rfl
@[simp] theorem setA_y (s : State) (v : Byte) : (s.setA v).y = s.y := rfl
@[simp] theorem setA_pc (s : State) (v : Byte) : (s.setA v).pc = s.pc := rfl
@[simp] theorem setA_mem (s : State) (v : Byte) : (s.setA v).mem = s.mem := rfl
@[simp] theorem setA_fault (s : State) (v : Byte) : (s.setA v).fault = s.fault := rfl

/-! ### `setB` -/

@[simp] theorem setB_a (s : State) (v : Byte) : (s.setB v).a = s.a := rfl
@[simp] theorem setB_b (s : State) (v : Byte) : (s.setB v).b = v := rfl
@[simp] theorem setB_x (s : State) (v : Byte) : (s.setB v).x = s.x := rfl
@[simp] theorem setB_y (s : State) (v : Byte) : (s.setB v).y = s.y := rfl
@[simp] theorem setB_pc (s : State) (v : Byte) : (s.setB v).pc = s.pc := rfl
@[simp] theorem setB_mem (s : State) (v : Byte) : (s.setB v).mem = s.mem := rfl
@[simp] theorem setB_fault (s : State) (v : Byte) : (s.setB v).fault = s.fault := rfl

/-! ### `setX` -/

@[simp] theorem setX_a (s : State) (v : Word) : (s.setX v).a = s.a := rfl
@[simp] theorem setX_b (s : State) (v : Word) : (s.setX v).b = s.b := rfl
@[simp] theorem setX_x (s : State) (v : Word) : (s.setX v).x = v := rfl
@[simp] theorem setX_y (s : State) (v : Word) : (s.setX v).y = s.y := rfl
@[simp] theorem setX_pc (s : State) (v : Word) : (s.setX v).pc = s.pc := rfl
@[simp] theorem setX_mem (s : State) (v : Word) : (s.setX v).mem = s.mem := rfl
@[simp] theorem setX_fault (s : State) (v : Word) : (s.setX v).fault = s.fault := rfl

/-! ### `setY` -/

@[simp] theorem setY_a (s : State) (v : Word) : (s.setY v).a = s.a := rfl
@[simp] theorem setY_b (s : State) (v : Word) : (s.setY v).b = s.b := rfl
@[simp] theorem setY_x (s : State) (v : Word) : (s.setY v).x = s.x := rfl
@[simp] theorem setY_y (s : State) (v : Word) : (s.setY v).y = v := rfl
@[simp] theorem setY_pc (s : State) (v : Word) : (s.setY v).pc = s.pc := rfl
@[simp] theorem setY_mem (s : State) (v : Word) : (s.setY v).mem = s.mem := rfl
@[simp] theorem setY_fault (s : State) (v : Word) : (s.setY v).fault = s.fault := rfl

/-! ### `setPc` -/

@[simp] theorem setPc_a (s : State) (v : Word) : (s.setPc v).a = s.a := rfl
@[simp] theorem setPc_b (s : State) (v : Word) : (s.setPc v).b = s.b := rfl
@[simp] theorem setPc_x (s : State) (v : Word) : (s.setPc v).x = s.x := rfl
@[simp] theorem setPc_y (s : State) (v : Word) : (s.setPc v).y = s.y := rfl
@[simp] theorem setPc_pc (s : State) (v : Word) : (s.setPc v).pc = v := rfl
@[simp] theorem setPc_mem (s : State) (v : Word) : (s.setPc v).mem = s.mem := rfl
@[simp] theorem setPc_fault (s : State) (v : Word) : (s.setPc v).fault = s.fault := rfl

/-! ### `setMem` -/

@[simp] theorem setMem_a (s : State) (m : Memory) : (s.setMem m).a = s.a := rfl
@[simp] theorem setMem_b (s : State) (m : Memory) : (s.setMem m).b = s.b := rfl
@[simp] theorem setMem_x (s : State) (m : Memory) : (s.setMem m).x = s.x := rfl
@[simp] theorem setMem_y (s : State) (m : Memory) : (s.setMem m).y = s.y := rfl
@[simp] theorem setMem_pc (s : State) (m : Memory) : (s.setMem m).pc = s.pc := rfl
@[simp] theorem setMem_mem (s : State) (m : Memory) : (s.setMem m).mem = m := rfl
@[simp] theorem setMem_fault (s : State) (m : Memory) : (s.setMem m).fault = s.fault := rfl

/-! ### `enterFault` -/

@[simp] theorem enterFault_a (s : State) (r : FaultRecord) : (s.enterFault r).a = s.a := rfl
@[simp] theorem enterFault_b (s : State) (r : FaultRecord) : (s.enterFault r).b = s.b := rfl
@[simp] theorem enterFault_x (s : State) (r : FaultRecord) : (s.enterFault r).x = s.x := rfl
@[simp] theorem enterFault_y (s : State) (r : FaultRecord) : (s.enterFault r).y = s.y := rfl
@[simp] theorem enterFault_pc (s : State) (r : FaultRecord) : (s.enterFault r).pc = s.pc := rfl
@[simp] theorem enterFault_mem (s : State) (r : FaultRecord) : (s.enterFault r).mem = s.mem := rfl
@[simp] theorem enterFault_fault (s : State) (r : FaultRecord) : (s.enterFault r).fault = some r := rfl

/-! ### `advance` -/

@[simp] theorem advance_a (s : State) (n : Nat) : (s.advance n).a = s.a := rfl
@[simp] theorem advance_b (s : State) (n : Nat) : (s.advance n).b = s.b := rfl
@[simp] theorem advance_x (s : State) (n : Nat) : (s.advance n).x = s.x := rfl
@[simp] theorem advance_y (s : State) (n : Nat) : (s.advance n).y = s.y := rfl
@[simp] theorem advance_pc (s : State) (n : Nat) : (s.advance n).pc = s.pc + BitVec.ofNat 16 n := rfl
@[simp] theorem advance_mem (s : State) (n : Nat) : (s.advance n).mem = s.mem := rfl
@[simp] theorem advance_fault (s : State) (n : Nat) : (s.advance n).fault = s.fault := rfl

/-! ### `start` -/

@[simp] theorem start_a (r : InitRegs) (m : Memory) : (State.start r m).a = r.a0 := rfl
@[simp] theorem start_b (r : InitRegs) (m : Memory) : (State.start r m).b = r.b0 := rfl
@[simp] theorem start_x (r : InitRegs) (m : Memory) : (State.start r m).x = r.x0 := rfl
@[simp] theorem start_y (r : InitRegs) (m : Memory) : (State.start r m).y = r.y0 := rfl
@[simp] theorem start_pc (r : InitRegs) (m : Memory) : (State.start r m).pc = 0 := rfl
@[simp] theorem start_mem (r : InitRegs) (m : Memory) : (State.start r m).mem = m := rfl
@[simp] theorem start_fault (r : InitRegs) (m : Memory) : (State.start r m).fault = none := rfl

/-- Two states with equal fields are equal. -/
theorem ext_fields {s t : State} (ha : s.a = t.a) (hb : s.b = t.b) (hx : s.x = t.x) (hy : s.y = t.y) (hpc : s.pc = t.pc)
    (hm : s.mem = t.mem) (hf : s.fault = t.fault) : s = t := by
  cases s; cases t; simp_all

end Sys2Proof.Machine.State
end

