-- ==== Sys2Proof/Laws/Ops.lean ====
section
/-! SUPPORT. One lemma per shared operation that says everything it can answer. -/

namespace Sys2Proof.Machine

/-- A raised error answers the state before with the record, and nothing else. -/
theorem raiseError_eq (r : FaultRecord) (s : State) : raiseError r s = .next (s.enterFault r) := rfl

/-- A load of one byte: the byte, or OutOfBounds at the address. -/
theorem loadByte_cases (put : State → Byte → State) (ea : Word) (len : Nat) (s : State) :
    (ea.toNat < 0x2000 ∧ loadByte put ea len s = .next ((put s (s.mem.get ea.toNat)).advance len)) ∨
    (0x2000 ≤ ea.toNat ∧ loadByte put ea len s = .next (s.enterFault (.outOfBounds ea))) := by
  rcases memRead_cases s.mem ea with ⟨h, e⟩ | ⟨h, e⟩
  · exact .inl ⟨h, by rw [loadByte, e]; rfl⟩
  · exact .inr ⟨h, by rw [loadByte, e]; rfl⟩

/-- A load of two bytes: both, low byte first, or OutOfBounds at the first of the two that is not backed. -/
theorem loadWordFrom_cases (m1 m2 : Memory) (put : State → Word → State) (ea : Word) (len : Nat) (s : State) :
    (ea.toNat < 0x1FFF ∧ loadWordFrom m1 m2 put ea len s =
      .next ((put s (concat16 (m2.get (ea.toNat + 1)) (m1.get ea.toNat))).advance len)) ∨
    (ea.toNat = 0x1FFF ∧ loadWordFrom m1 m2 put ea len s = .next (s.enterFault (.outOfBounds 0x2000))) ∨
    (0x2000 ≤ ea.toNat ∧ loadWordFrom m1 m2 put ea len s = .next (s.enterFault (.outOfBounds ea))) := by
  rcases memRead16From_cases m1 m2 ea with ⟨h, e⟩ | ⟨h, e⟩ | ⟨h, e⟩
  · exact .inl ⟨h, by rw [loadWordFrom, e]; rfl⟩
  · exact .inr (.inl ⟨h, by rw [loadWordFrom, e]; rfl⟩)
  · exact .inr (.inr ⟨h, by rw [loadWordFrom, e]; rfl⟩)

/-- A store of one byte: one byte of RAM changes, or ReadOnlyViolation below it, or OutOfBounds above it. -/
theorem storeByte_cases (v : Byte) (ea : Word) (len : Nat) (s : State) :
    (ea.toNat < 0x1000 ∧ storeByte v ea len s = .next (s.enterFault (.readOnlyViolation ea))) ∨
    (0x1000 ≤ ea.toNat ∧ ea.toNat < 0x2000 ∧
      storeByte v ea len s = .next ((s.setMem (s.mem.set ea.toNat v)).advance len)) ∨
    (0x2000 ≤ ea.toNat ∧ storeByte v ea len s = .next (s.enterFault (.outOfBounds ea))) := by
  rcases memWrite_cases s.mem ea v with ⟨h, e⟩ | ⟨h, h', e⟩ | ⟨h, e⟩
  · exact .inl ⟨h, by rw [storeByte, e]; rfl⟩
  · exact .inr (.inl ⟨h, h', by rw [storeByte, e]; rfl⟩)
  · exact .inr (.inr ⟨h, by rw [storeByte, e]; rfl⟩)

/-- An 8-bit branch: the page target if the condition holds, else PC + 2. -/
theorem branch8_eq (c : Bool) (t : Byte) (s : State) :
    branch8 c t s = .next (s.setPc (if c then pageTarget s.pc t else s.pc + 2)) := by
  cases c <;> rfl

/-- A 16-bit branch: the operand if the condition holds, else PC + 3. -/
theorem branch16_eq (c : Bool) (t : Word) (s : State) :
    branch16 c t s = .next (s.setPc (if c then t else s.pc + 3)) := by
  cases c <;> rfl

theorem zext16_toNat (v : Byte) : (zext16 v).toNat = v.toNat := by
  have := v.isLt
  rw [zext16, BitVec.toNat_setWidth, Nat.mod_eq_of_lt (by omega)]

/-- The indexed effective address as the spec writes it: `(index + d) mod 0x10000`. -/
theorem indexedEa_toNat (index : Word) (d : Byte) : (indexedEa index d).toNat = (index.toNat + d.toNat) % 0x10000 := by
  rw [indexedEa, BitVec.toNat_add, zext16_toNat]

end Sys2Proof.Machine
end

