-- ==== Sys2Proof/Laws/Exec.lean ====
section
/-! SUPPORT. What any instruction can do: it ends in exactly one of five ways, from which the whole-machine rules follow
without unfolding `exec` again. -/

namespace Sys2Proof.Machine

/-- An undocumented opcode is refused; every other instruction raises an error, completes without writing memory, or
completes with one byte stored in RAM at its store address. -/
theorem exec_cases (i : Instr) (s : State) :
    (∃ op, i = .undocumented op ∧ exec i s = .refused (.undocumentedOpcode op)) ∨
    (∃ r, exec i s = .next (s.enterFault r)) ∨
    (∃ t, exec i s = .next t ∧ t.fault = s.fault ∧ t.mem = s.mem) ∨
    (∃ ea, storeAddress i s = some ea ∧ 0x1000 ≤ ea.toNat ∧ ea.toNat < 0x2000 ∧
      exec i s = .next ((s.setMem (s.mem.set ea.toNat (storedByte i s))).advance i.length)) := by
  have hload : ∀ (put : State → Byte → State) (ea : Word) (len : Nat), (∀ v, (put s v).fault = s.fault) →
      (∀ v, (put s v).mem = s.mem) → exec i s = loadByte put ea len s →
      (∃ r, exec i s = .next (s.enterFault r)) ∨ ∃ t, exec i s = .next t ∧ t.fault = s.fault ∧ t.mem = s.mem := by
    intro put ea len hf hm he
    rcases loadByte_cases put ea len s with ⟨_, h⟩ | ⟨_, h⟩
    · exact .inr ⟨_, he.trans h, hf _, hm _⟩
    · exact .inl ⟨_, he.trans h⟩
  have hword : ∀ (put : State → Word → State) (ea : Word) (len : Nat), (∀ v, (put s v).fault = s.fault) →
      (∀ v, (put s v).mem = s.mem) → exec i s = loadWord put ea len s →
      (∃ r, exec i s = .next (s.enterFault r)) ∨ ∃ t, exec i s = .next t ∧ t.fault = s.fault ∧ t.mem = s.mem := by
    intro put ea len hf hm he
    rcases loadWordFrom_cases s.mem s.mem put ea len s with ⟨_, h⟩ | ⟨_, h⟩ | ⟨_, h⟩
    · exact .inr ⟨_, he.trans h, hf _, hm _⟩
    · exact .inl ⟨_, he.trans h⟩
    · exact .inl ⟨_, he.trans h⟩
  have hstore : ∀ (ea : Word), storeAddress i s = some ea → exec i s = storeByte (storedByte i s) ea i.length s →
      (∃ r, exec i s = .next (s.enterFault r)) ∨
      (∃ ea, storeAddress i s = some ea ∧ 0x1000 ≤ ea.toNat ∧ ea.toNat < 0x2000 ∧
        exec i s = .next ((s.setMem (s.mem.set ea.toNat (storedByte i s))).advance i.length)) := by
    intro ea ha he
    rcases storeByte_cases (storedByte i s) ea i.length s with ⟨_, h⟩ | ⟨h1, h2, h⟩ | ⟨_, h⟩
    · exact .inl ⟨_, he.trans h⟩
    · exact .inr ⟨ea, ha, h1, h2, he.trans h⟩
    · exact .inl ⟨_, he.trans h⟩
  have hbr8 : ∀ (c : Bool) (t : Byte), exec i s = branch8 c t s → ∃ t, exec i s = .next t ∧ t.fault = s.fault ∧ t.mem = s.mem :=
    fun c t he => ⟨_, he.trans (branch8_eq c t s), rfl, rfl⟩
  have hbr16 : ∀ (c : Bool) (t : Word), exec i s = branch16 c t s → ∃ t, exec i s = .next t ∧ t.fault = s.fault ∧ t.mem = s.mem :=
    fun c t he => ⟨_, he.trans (branch16_eq c t s), rfl, rfl⟩
  cases i with
  | undocumented op => exact .inl ⟨op, rfl, rfl⟩
  | illegal op => exact .inr (.inl ⟨_, rfl⟩)
  | tab | tba | ldaaImm | ldabImm | ldxImm | ldyImm | sumBa | sumAb | andBa | andAb | orBa | orAb | coma | comb | shfaL
  | shfaR | shfbL | shfbR | inx | iny => exact .inr (.inr (.inl ⟨_, rfl, rfl, rfl⟩))
  | ldaaAbs | ldaaX | ldaaY =>
    rcases hload .setA _ _ (fun _ => rfl) (fun _ => rfl) rfl with h | h
    · exact .inr (.inl h)
    · exact .inr (.inr (.inl h))
  | ldabAbs | ldabX | ldabY =>
    rcases hload .setB _ _ (fun _ => rfl) (fun _ => rfl) rfl with h | h
    · exact .inr (.inl h)
    · exact .inr (.inr (.inl h))
  | ldxAbs =>
    rcases hword .setX _ _ (fun _ => rfl) (fun _ => rfl) rfl with h | h
    · exact .inr (.inl h)
    · exact .inr (.inr (.inl h))
  | ldyAbs =>
    rcases hword .setY _ _ (fun _ => rfl) (fun _ => rfl) rfl with h | h
    · exact .inr (.inl h)
    · exact .inr (.inr (.inl h))
  | staaAbs | stabAbs | staaX | staaY | stabX | stabY =>
    rcases hstore _ rfl rfl with h | h
    · exact .inr (.inl h)
    · exact .inr (.inr (.inr h))
  | beq | bne | bn | bp => exact .inr (.inr (.inl (hbr8 _ _ rfl)))
  | beq16 | bne16 | bn16 | bp16 => exact .inr (.inr (.inl (hbr16 _ _ rfl)))

/-- Every instruction but an undocumented opcode answers a next state. -/
theorem exec_answers_next (i : Instr) (s : State) (h : ∀ op, i ≠ .undocumented op) : ∃ t, exec i s = .next t := by
  rcases exec_cases i s with ⟨op, hi, _⟩ | ⟨r, he⟩ | ⟨t, he, _⟩ | ⟨ea, _, _, _, he⟩
  · exact absurd hi (h op)
  · exact ⟨_, he⟩
  · exact ⟨t, he⟩
  · exact ⟨_, he⟩

end Sys2Proof.Machine
end

