-- ==== Sys2Proof/Laws/Image.lean ====
section
/-! SUPPORT. The lines the image writer writes are the lines the reader reads, and what loading a segment does. -/

namespace Sys2Proof.Machine

/-! ### Lines -/

theorem parseHex_hexText (n : Nat) : parseHex (hexText n) = some n := parse_digitsText (by omega) (by omega) n

theorem hexText_noSpace (n : Nat) : ∀ c ∈ hexText n, isSpace c = false := by
  intro c hc
  simp only [isSpace, beq_eq_false_iff_ne]
  rintro rfl
  exact not_mem_hexText (by decide) n hc

theorem splitDots_append {l r : Text} (h : '.' ∉ l) : splitDots (l ++ '.' :: '.' :: r) = some (l, r) := by
  induction l with
  | nil => rfl
  | cons d l ih =>
    simp only [List.mem_cons, not_or] at h
    have step : splitDots (d :: (l ++ '.' :: '.' :: r)) = (splitDots (l ++ '.' :: '.' :: r)).map (fun q => (d :: q.1, q.2)) := by
      rw [splitDots]
      rintro _ rfl
      exact absurd rfl h.1
    rw [List.cons_append, step, ih h.2, Option.map_some]

theorem parseRange_hexText (n : Nat) : parseRange (hexText n) = some (n, n) := by
  have hne : hexText n ≠ [] := digitsText_ne_nil 16 n n
  have hb := not_mem_hexText (c := '[') (by decide) n
  have hp := parseHex_hexText n
  generalize hexText n = t at *
  cases t with
  | nil => exact absurd rfl hne
  | cons c t =>
    simp only [List.mem_cons, not_or] at hb
    rw [parseRange]
    · rw [hp]
    · rintro _ ⟨⟩
      exact hb.1 rfl

theorem parseRange_fill (f l : Nat) : parseRange ('[' :: hexText f ++ "..".toList ++ hexText l ++ "]".toList) = some (f, l) := by
  have e : '[' :: hexText f ++ "..".toList ++ hexText l ++ "]".toList =
      '[' :: (hexText f ++ '.' :: '.' :: hexText l ++ [']']) := by simp
  rw [e, parseRange, dropLast?_snoc]
  simp only [splitDots_append (not_mem_hexText (c := '.') (by decide) f), trimBoth_none (hexText_noSpace f),
    trimBoth_none (hexText_noSpace l), parseHex_hexText]

/-- The line of one written byte is read back. -/
theorem parseSegment_byteLine {a : Nat} (ha : a ≤ 0xFFF) (v : Byte) : parseSegment (byteLine a v) = some ⟨a, a, v⟩ := by
  have e : byteLine a v = (hexText a ++ [' ']) ++ ':' :: ' ' :: hexText v.toNat ++ [';'] := by simp [byteLine]
  have h1 : ':' ∉ hexText a ++ [' '] := by
    simp only [List.mem_append, List.mem_singleton, not_or]
    exact ⟨not_mem_hexText (by decide) a, by decide⟩
  have h2 : trimLeft isSpace (' ' :: hexText v.toNat) = hexText v.toNat := by
    rw [trimLeft, List.dropWhile_cons_of_pos (by decide), dropWhile_none (hexText_noSpace _)]
  have hv := v.isLt
  rw [e, parseSegment, dropLast?_snoc]
  simp only [splitFirst_append h1, trimRight_snoc (p := isSpace) (c := ' ') (by decide), trimRight_none (hexText_noSpace a), h2,
    parseRange_hexText, parseHex_hexText]
  rw [if_pos ⟨Nat.le_refl a, ha, by omega⟩]
  simp

/-- The line of a run of unwritten addresses is read back. -/
theorem parseSegment_fillLine {f l : Nat} (hf : f ≤ l) (hl : l ≤ 0xFFF) : parseSegment (fillLine f l) = some ⟨f, l, 0⟩ := by
  have e : fillLine f l = ('[' :: hexText f ++ "..".toList ++ hexText l ++ "]".toList ++ [' ']) ++ ':' :: " 0".toList ++ [';'] := by
    simp [fillLine]
  have h1 : ':' ∉ '[' :: hexText f ++ "..".toList ++ hexText l ++ "]".toList ++ [' '] := by
    have h := fun n => not_mem_hexText (c := ':') (by decide) n
    simp [h]
  have hr : trimRight isSpace ('[' :: hexText f ++ "..".toList ++ hexText l ++ "]".toList) =
      '[' :: hexText f ++ "..".toList ++ hexText l ++ "]".toList := by
    rw [trimRight]
    simp [isSpace]
  rw [e, parseSegment, dropLast?_snoc]
  have h0 : parseHex (trimLeft isSpace " 0".toList) = some 0 := by decide
  simp only [splitFirst_append h1, trimRight_snoc (p := isSpace) (c := ' ') (by decide), hr, parseRange_fill, h0]
  rw [if_pos ⟨hf, hl, by omega⟩]
  simp

theorem byteLine_noNewline (a : Nat) (v : Byte) : '\n' ∉ byteLine a v := by
  have h := fun n => not_mem_hexText (c := '\n') (by decide) n
  simp [byteLine, h]

theorem fillLine_noNewline (f l : Nat) : '\n' ∉ fillLine f l := by
  have h := fun n => not_mem_hexText (c := '\n') (by decide) n
  simp [fillLine, h]

theorem bodyLines_noNewline (m : Sparse) : ∀ c, ∀ l ∈ bodyLines c m, '\n' ∉ l := by
  induction m with
  | nil =>
    intro c l hl
    simp only [bodyLines] at hl
    split at hl
    · rw [List.mem_singleton] at hl; subst hl; exact fillLine_noNewline _ _
    · cases hl
  | cons q rest ih =>
    obtain ⟨a, v⟩ := q
    intro c l hl
    simp only [bodyLines, List.mem_append, List.mem_cons] at hl
    rcases hl with hl | rfl | hl
    · split at hl
      · rw [List.mem_singleton] at hl; subst hl; exact fillLine_noNewline _ _
      · cases hl
    · exact byteLine_noNewline _ _
    · exact ih _ _ hl

/-- A line that is read as a segment does not end the body. -/
theorem parseBody_cons {line : Text} {seg : Segment} (h : parseSegment line = some seg) (rest : List Text) :
    parseBody (line :: rest) = (parseBody rest).map (seg :: ·) := by
  have hne : line ≠ imageEnd := by
    rintro rfl
    have hn : parseSegment imageEnd = none := by decide
    rw [hn] at h
    cases h
  rw [parseBody, if_neg hne, h]

/-! ### Loading -/

/-- Filling sets every byte of the run and no other. -/
theorem get_fillBytes (v : Byte) (n : Nat) : ∀ {m : Memory} (addr a : Nat), m.wf = true → addr + n ≤ 0x2000 →
    (fillBytes m addr n v).get a = if addr ≤ a ∧ a < addr + n then v else m.get a := by
  induction n with
  | zero => intro m addr a _ _; rw [if_neg (by omega)]; rfl
  | succ n ih =>
    intro m addr a hm hn
    rw [fillBytes, ih _ _ (Memory.wf_set v hm (by omega)) (by omega)]
    by_cases ha : a = addr
    · subst ha
      rw [if_neg (by omega), if_pos (by omega), Memory.get_set_self a v hm]
    · rw [Memory.get_set_other m v ha]
      by_cases h : addr + 1 ≤ a ∧ a < addr + 1 + n
      · rw [if_pos h, if_pos (by omega)]
      · rw [if_neg h, if_neg (by omega)]

theorem wf_fillBytes (v : Byte) (n : Nat) : ∀ {m : Memory} (addr : Nat), m.wf = true → addr + n ≤ 0x2000 →
    (fillBytes m addr n v).wf = true := by
  induction n with
  | zero => intro m addr hm _; exact hm
  | succ n ih =>
    intro m addr hm hn
    exact ih _ (Memory.wf_set v hm (by omega)) (by omega)

theorem wf_loadSegments {base : Nat} (segs : List Segment) : ∀ {m : Memory}, m.wf = true →
    (∀ q ∈ segs, q.first ≤ q.last ∧ base + q.last < 0x2000) → (loadSegments base segs m).wf = true := by
  induction segs with
  | nil => intro m hm _; exact hm
  | cons q segs ih =>
    intro m hm h
    have hq := h q (by simp)
    exact ih (wf_fillBytes _ _ _ hm (by omega)) (fun q' hq' => h q' (by simp [hq']))

end Sys2Proof.Machine
end

