-- ==== Sys2Proof/Laws/PerInstr.lean ====
section
/-! SUPPORT. Facts proved constructor by constructor. `EncodingShape`: the encoder gives an instruction as many bytes as
its length, one to three, the opcode byte first (`30_encoding.md` R90, R91, R100). -/

namespace Sys2Proof.Laws.EncodingShape

def Statement (i : Instr) : Prop :=
  (encode i).length = i.length ∧ i.length ≤ 3 ∧ (encode i).head? = some (i.opcode defaultMap)

theorem tab : Statement .tab := ⟨rfl, Nat.le_of_ble_eq_true rfl, rfl⟩
theorem tba : Statement .tba := ⟨rfl, Nat.le_of_ble_eq_true rfl, rfl⟩
theorem ldaaImm (v : Byte) : Statement (.ldaaImm v) := ⟨rfl, Nat.le_of_ble_eq_true rfl, rfl⟩
theorem ldabImm (v : Byte) : Statement (.ldabImm v) := ⟨rfl, Nat.le_of_ble_eq_true rfl, rfl⟩
theorem ldaaAbs (v : Word) : Statement (.ldaaAbs v) := ⟨rfl, Nat.le_of_ble_eq_true rfl, rfl⟩
theorem ldabAbs (v : Word) : Statement (.ldabAbs v) := ⟨rfl, Nat.le_of_ble_eq_true rfl, rfl⟩
theorem staaAbs (v : Word) : Statement (.staaAbs v) := ⟨rfl, Nat.le_of_ble_eq_true rfl, rfl⟩
theorem stabAbs (v : Word) : Statement (.stabAbs v) := ⟨rfl, Nat.le_of_ble_eq_true rfl, rfl⟩
theorem ldxAbs (v : Word) : Statement (.ldxAbs v) := ⟨rfl, Nat.le_of_ble_eq_true rfl, rfl⟩
theorem ldyAbs (v : Word) : Statement (.ldyAbs v) := ⟨rfl, Nat.le_of_ble_eq_true rfl, rfl⟩
theorem ldxImm (v : Word) : Statement (.ldxImm v) := ⟨rfl, Nat.le_of_ble_eq_true rfl, rfl⟩
theorem ldyImm (v : Word) : Statement (.ldyImm v) := ⟨rfl, Nat.le_of_ble_eq_true rfl, rfl⟩
theorem ldaaX (v : Byte) : Statement (.ldaaX v) := ⟨rfl, Nat.le_of_ble_eq_true rfl, rfl⟩
theorem ldaaY (v : Byte) : Statement (.ldaaY v) := ⟨rfl, Nat.le_of_ble_eq_true rfl, rfl⟩
theorem ldabX (v : Byte) : Statement (.ldabX v) := ⟨rfl, Nat.le_of_ble_eq_true rfl, rfl⟩
theorem ldabY (v : Byte) : Statement (.ldabY v) := ⟨rfl, Nat.le_of_ble_eq_true rfl, rfl⟩
theorem staaX (v : Byte) : Statement (.staaX v) := ⟨rfl, Nat.le_of_ble_eq_true rfl, rfl⟩
theorem staaY (v : Byte) : Statement (.staaY v) := ⟨rfl, Nat.le_of_ble_eq_true rfl, rfl⟩
theorem stabX (v : Byte) : Statement (.stabX v) := ⟨rfl, Nat.le_of_ble_eq_true rfl, rfl⟩
theorem stabY (v : Byte) : Statement (.stabY v) := ⟨rfl, Nat.le_of_ble_eq_true rfl, rfl⟩
theorem sumBa : Statement .sumBa := ⟨rfl, Nat.le_of_ble_eq_true rfl, rfl⟩
theorem sumAb : Statement .sumAb := ⟨rfl, Nat.le_of_ble_eq_true rfl, rfl⟩
theorem andBa : Statement .andBa := ⟨rfl, Nat.le_of_ble_eq_true rfl, rfl⟩
theorem andAb : Statement .andAb := ⟨rfl, Nat.le_of_ble_eq_true rfl, rfl⟩
theorem orBa : Statement .orBa := ⟨rfl, Nat.le_of_ble_eq_true rfl, rfl⟩
theorem orAb : Statement .orAb := ⟨rfl, Nat.le_of_ble_eq_true rfl, rfl⟩
theorem coma : Statement .coma := ⟨rfl, Nat.le_of_ble_eq_true rfl, rfl⟩
theorem comb : Statement .comb := ⟨rfl, Nat.le_of_ble_eq_true rfl, rfl⟩
theorem shfaL : Statement .shfaL := ⟨rfl, Nat.le_of_ble_eq_true rfl, rfl⟩
theorem shfaR : Statement .shfaR := ⟨rfl, Nat.le_of_ble_eq_true rfl, rfl⟩
theorem shfbL : Statement .shfbL := ⟨rfl, Nat.le_of_ble_eq_true rfl, rfl⟩
theorem shfbR : Statement .shfbR := ⟨rfl, Nat.le_of_ble_eq_true rfl, rfl⟩
theorem inx : Statement .inx := ⟨rfl, Nat.le_of_ble_eq_true rfl, rfl⟩
theorem iny : Statement .iny := ⟨rfl, Nat.le_of_ble_eq_true rfl, rfl⟩
theorem beq (v : Byte) : Statement (.beq v) := ⟨rfl, Nat.le_of_ble_eq_true rfl, rfl⟩
theorem bne (v : Byte) : Statement (.bne v) := ⟨rfl, Nat.le_of_ble_eq_true rfl, rfl⟩
theorem bn (v : Byte) : Statement (.bn v) := ⟨rfl, Nat.le_of_ble_eq_true rfl, rfl⟩
theorem bp (v : Byte) : Statement (.bp v) := ⟨rfl, Nat.le_of_ble_eq_true rfl, rfl⟩
theorem beq16 (v : Word) : Statement (.beq16 v) := ⟨rfl, Nat.le_of_ble_eq_true rfl, rfl⟩
theorem bne16 (v : Word) : Statement (.bne16 v) := ⟨rfl, Nat.le_of_ble_eq_true rfl, rfl⟩
theorem bn16 (v : Word) : Statement (.bn16 v) := ⟨rfl, Nat.le_of_ble_eq_true rfl, rfl⟩
theorem bp16 (v : Word) : Statement (.bp16 v) := ⟨rfl, Nat.le_of_ble_eq_true rfl, rfl⟩
theorem undocumented (v : Byte) : Statement (.undocumented v) := ⟨rfl, Nat.le_of_ble_eq_true rfl, rfl⟩
theorem illegal (v : Byte) : Statement (.illegal v) := ⟨rfl, Nat.le_of_ble_eq_true rfl, rfl⟩

end Sys2Proof.Laws.EncodingShape
end

