-- ==== Sys2Proof/Laws/Step.lean ====
section
/-! SUPPORT. What a fetch and a step can do. -/

namespace Sys2Proof.Machine

/-- Everything a fetch can answer: OutOfBounds at the opcode address, OutOfBounds at the first operand address that is
not backed, or the instruction of the bytes read. -/
theorem fetchFrom_cases (map : OpcodeMap) (m0 m1 m2 : Memory) (pc : Word) :
    (0x2000 ≤ pc.toNat ∧ fetchFrom map m0 m1 m2 pc = .error (.outOfBounds pc)) ∨
    (pc.toNat < 0x2000 ∧ 0x2000 ≤ pc.toNat + operandCountAt map (m0.get pc.toNat) ∧
      fetchFrom map m0 m1 m2 pc = .error (.outOfBounds 0x2000)) ∨
    (pc.toNat + operandCountAt map (m0.get pc.toNat) < 0x2000 ∧ ∃ b1 b2,
      fetchFrom map m0 m1 m2 pc = .ok (instrAt map (m0.get pc.toNat) b1 b2) ∧
      (1 ≤ operandCountAt map (m0.get pc.toNat) → b1 = m1.get (pc.toNat + 1)) ∧
      (2 ≤ operandCountAt map (m0.get pc.toNat) → b2 = m2.get (pc.toNat + 2)) ∧
      (operandCountAt map (m0.get pc.toNat) < 1 → b1 = 0) ∧ (operandCountAt map (m0.get pc.toNat) < 2 → b2 = 0)) := by
  rcases Nat.lt_or_ge pc.toNat 0x2000 with hp | hp
  swap
  · exact .inl ⟨hp, by rw [fetchFrom, memRead_unbacked hp]⟩
  have hn := operandCountAt_le map (m0.get pc.toNat)
  have hpc := pc.isLt
  have e1 : (pc + 1).toNat = pc.toNat + 1 := by bv_omega
  have e2 : (pc + 2).toNat = pc.toNat + 2 := by bv_omega
  simp only [fetchFrom, memRead_backed hp]
  generalize hk : operandCountAt map (m0.get pc.toNat) = n at hn
  match n, hn with
  | 0, _ => exact .inr (.inr ⟨by omega, 0, 0, rfl, by omega, by omega, fun _ => rfl, fun _ => rfl⟩)
  | 1, _ =>
    rcases Nat.lt_or_ge (pc.toNat + 1) 0x2000 with h1 | h1
    · refine .inr (.inr ⟨h1, m1.get (pc.toNat + 1), 0, ?_, fun _ => rfl, by omega, by omega, fun _ => rfl⟩)
      rw [memRead_backed (a := pc + 1) (by omega), e1]
      rfl
    · refine .inr (.inl ⟨hp, h1, ?_⟩)
      rw [memRead_unbacked (a := pc + 1) (by omega), show pc + 1 = 0x2000 by bv_omega]
      rfl
  | 2, _ =>
    rcases Nat.lt_or_ge (pc.toNat + 1) 0x2000 with h1 | h1
    · rcases Nat.lt_or_ge (pc.toNat + 2) 0x2000 with h2 | h2
      · refine .inr (.inr ⟨h2, m1.get (pc.toNat + 1), m2.get (pc.toNat + 2), ?_, fun _ => rfl, fun _ => rfl, by omega, by omega⟩)
        rw [memRead_backed (a := pc + 1) (by omega), memRead_backed (a := pc + 2) (by omega), e1, e2]
        rfl
      · refine .inr (.inl ⟨hp, h2, ?_⟩)
        rw [memRead_backed (a := pc + 1) (by omega), memRead_unbacked (a := pc + 2) (by omega),
          show pc + 2 = 0x2000 by bv_omega]
        rfl
    · refine .inr (.inl ⟨hp, by omega, ?_⟩)
      rw [memRead_unbacked (a := pc + 1) (by omega), show pc + 1 = 0x2000 by bv_omega]
      rfl

/-- A step of a core in the fault state is no step. -/
theorem stepWith_faulted {map : OpcodeMap} {s : State} {r : FaultRecord} (h : s.fault = some r) :
    stepWith map s = .fault (.stopped r) := by
  rw [stepWith, h]

/-- A step of a core without a fault is the instruction fetched, or the error of the fetch. -/
theorem stepWith_none {map : OpcodeMap} {s : State} (h : s.fault = none) :
    stepWith map s = match fetchInstr map s with
      | .error r => .next (s.enterFault r)
      | .ok i => exec i s := by
  rw [stepWith, h]
  cases fetchInstr map s <;> rfl

/-- Everything a step can do: stop in the fault state, refuse an undocumented opcode, raise an error, complete without
writing memory, or complete with one byte stored in RAM by the instruction fetched. -/
theorem stepWith_cases (map : OpcodeMap) (s : State) :
    (∃ r, s.fault = some r ∧ stepWith map s = .fault (.stopped r)) ∨
    (s.fault = none ∧
      ((∃ op, fetchInstr map s = .ok (.undocumented op) ∧ stepWith map s = .refused (.undocumentedOpcode op)) ∨
      (∃ r, stepWith map s = .next (s.enterFault r)) ∨
      (∃ i t, fetchInstr map s = .ok i ∧ exec i s = .next t ∧ stepWith map s = .next t ∧ t.fault = none ∧ t.mem = s.mem) ∨
      (∃ i ea, fetchInstr map s = .ok i ∧ storeAddress i s = some ea ∧ 0x1000 ≤ ea.toNat ∧ ea.toNat < 0x2000 ∧
        stepWith map s = .next ((s.setMem (s.mem.set ea.toNat (storedByte i s))).advance i.length)))) := by
  cases hf : s.fault with
  | some r => exact .inl ⟨r, rfl, stepWith_faulted hf⟩
  | none =>
    refine .inr ⟨rfl, ?_⟩
    rw [stepWith_none hf]
    cases he : fetchInstr map s with
    | error r => exact .inr (.inl ⟨r, rfl⟩)
    | ok i =>
      rcases exec_cases i s with ⟨op, hi, h⟩ | ⟨r, h⟩ | ⟨t, h, ht, hm⟩ | ⟨ea, ha, h1, h2, h⟩
      · exact .inl ⟨op, by rw [hi], h⟩
      · exact .inr (.inl ⟨r, h⟩)
      · exact .inr (.inr (.inl ⟨i, t, rfl, h, h, ht.trans hf, hm⟩))
      · exact .inr (.inr (.inr ⟨i, ea, rfl, ha, h1, h2, h⟩))

end Sys2Proof.Machine
end

