-- ==== Sys2Proof/Laws/Platform.lean ====
section
/-! SUPPORT. What host writes and a step among them can do. -/

namespace Sys2Proof.Machine

/-- A legal host write is to a cell of the input bridge, in RAM. -/
theorem hostWriteLegal_cell {c : Mmio} {w : HostWrite} (h : hostWriteLegal c w = true) :
    0x1000 ≤ w.addr.toNat ∧ w.addr.toNat < 0x2000 ∧
      (isControlCell c w.addr.toNat = true ∨ isInputCell c w.addr.toNat = true) := by
  simp only [hostWriteLegal, Bool.and_eq_true, Bool.or_eq_true, decide_eq_true_eq] at h
  exact ⟨h.1.1, h.1.2, h.2.imp_right And.left⟩

theorem wf_hostWrite {c : Mmio} {m : Memory} (w : HostWrite) (h : m.wf = true) : (hostWrite c m w).wf = true := by
  unfold hostWrite
  split
  · rename_i hl
    exact Memory.wf_set _ h (hostWriteLegal_cell hl).2.1
  · exact h

/-- Host writes keep the canonical form. -/
theorem wf_hostWrites {c : Mmio} (ws : List HostWrite) : ∀ {m : Memory}, m.wf = true → (hostWrites c m ws).wf = true := by
  induction ws with
  | nil => intro m h; exact h
  | cons w rest ih => intro m h; exact ih (wf_hostWrite w h)

/-- Host writes change no byte outside the cells. -/
theorem get_hostWrites_other {c : Mmio} {a : Nat}
    (ha : ¬(0x1000 ≤ a ∧ a < 0x2000 ∧ (isControlCell c a = true ∨ isInputCell c a = true))) (ws : List HostWrite) :
    ∀ (m : Memory), (hostWrites c m ws).get a = m.get a := by
  induction ws with
  | nil => intro m; rfl
  | cons w rest ih =>
    intro m
    refine (ih _).trans ?_
    unfold hostWrite
    split
    · rename_i hl
      refine Memory.get_set_other m w.value ?_
      rintro rfl
      exact ha (hostWriteLegal_cell hl)
    · rfl

theorem onNext_next {f : State → State} {r : StepResult} {t : State} (h : onNext f r = .next t) :
    ∃ u, r = .next u ∧ t = f u := by
  cases r with
  | next u => exact ⟨u, rfl, by cases h; rfl⟩
  | fault _ => cases h
  | refused _ => cases h

/-- With both data accesses seeing one memory, an instruction is `exec` on that memory. -/
theorem execBetween_same (m : Memory) (i : Instr) (s : State) : execBetween m m i s = exec i (s.setMem m) := by
  cases i <;> rfl

/-- An instruction that makes one data access or none is `exec` on the memory that access sees. -/
theorem execBetween_other {i : Instr} (hx : ∀ a, i ≠ .ldxAbs a) (hy : ∀ a, i ≠ .ldyAbs a) (m1 m2 : Memory) (s : State) :
    execBetween m1 m2 i s = exec i (s.setMem m1) := by
  cases i with
  | ldxAbs a => exact absurd rfl (hx a)
  | ldyAbs a => exact absurd rfl (hy a)
  | _ => rfl

end Sys2Proof.Machine
end

