-- ==== Sys2Proof/Tests/Slice0.lean ====
section
/-! SUPPORT. The model's own tests. Expected values are those of `95_test_vectors.md` or worked out by hand from the rules
named; each test is one step, one decoding, one line of source or one small image. The `witness_` theorems show concrete
values that meet the hypotheses of the obligation they name. -/

namespace Sys2Proof.Machine.Tests

/-! ### Helpers -/

/-- A memory of byte runs at addresses. -/
def bytesAt (runs : List (Nat × List Byte)) : Memory :=
  runs.foldl (fun m r => placeBytes m (BitVec.ofNat 16 r.1) r.2) []

/-- A core without a fault. -/
def st (a b : Byte) (x y pc : Word) (runs : List (Nat × List Byte)) : State :=
  { a, b, x, y, pc, mem := bytesAt runs, fault := none }

/-- The step from `s` is to the next state `t`. -/
def gives (s t : State) : Bool :=
  match step s with
  | .next u => decide (u = t)
  | .fault _ => false
  | .refused _ => false

/-- The step from `s` raises `r` and changes nothing else. -/
def raises (s : State) (r : FaultRecord) : Bool := gives s { s with fault := some r }

/-- The step from `s` is refused for `r`. -/
def refuses (s : State) (r : Refusal) : Bool :=
  match step s with
  | .next _ => false
  | .fault _ => false
  | .refused q => decide (q = r)

/-- The step from `s` stops in the fault state for `f`. -/
def stops (s : State) (f : Fault) : Bool :=
  match step s with
  | .next _ => false
  | .fault q => decide (q = f)
  | .refused _ => false

/-- The bytes decode to `i` with `rest` left. -/
def decodes (bytes : List Byte) (i : Instr) (rest : List Byte) : Bool :=
  match decode bytes with
  | .ok q => decide (q = (i, rest))
  | .error _ => false

/-! ### Well-formedness (R93, R94): each check refuses an ill-formed term -/

/-- 0x00 is a documented instruction's code, so it is no undocumented opcode. -/
theorem test_wf_refuses_assigned_code : (Instr.undocumented 0x00).wf = false := by decide
/-- 0x32 lies above the range, so it is no undocumented opcode. -/
theorem test_wf_refuses_undocumented_out_of_range : (Instr.undocumented 0x32).wf = false := by decide
/-- 0x31 lies in range, so it is no illegal opcode. -/
theorem test_wf_refuses_illegal_in_range : (Instr.illegal 0x31).wf = false := by decide
theorem test_wf_accepts : (Instr.undocumented 0x2A).wf = true ∧ (Instr.illegal 0x32).wf = true ∧ (Instr.ldaaAbs 0xFFFF).wf = true := by
  decide
/-- A map that gives one code away twice, or that is too short, is no OPCODE_MAP (R92, D1). -/
theorem test_map_refuses : OpcodeMap.valid (some .tab :: defaultMap.drop 1 |>.set 1 (some .tab)) = false ∧
    OpcodeMap.valid (defaultMap.take 42) = false := by decide
/-- A map in the reverse order is legal (D1), and its codes are its own. -/
theorem test_map_accepts_another : OpcodeMap.valid defaultMap.reverse = true ∧ OpcodeMap.codeOf defaultMap.reverse .tab = 0x31 := by decide

/-! ### Decoding: a written-out word for every constructor (R91, R92; 16-bit operands low byte first, R97) -/

theorem test_decode_transfer : decodes [0x00] .tab [] = true ∧ decodes [0x01, 0x99] .tba [0x99] = true := by decide
theorem test_decode_immediate8 : decodes [0x02, 0x7F] (.ldaaImm 0x7F) [] = true ∧ decodes [0x03, 0x10] (.ldabImm 0x10) [] = true := by
  decide
theorem test_decode_absolute : decodes [0x04, 0x00, 0x10] (.ldaaAbs 0x1000) [] = true ∧
    decodes [0x05, 0x34, 0x12] (.ldabAbs 0x1234) [] = true ∧ decodes [0x06, 0x50, 0x00] (.staaAbs 0x0050) [] = true ∧
    decodes [0x07, 0xFF, 0x1F] (.stabAbs 0x1FFF) [] = true ∧ decodes [0x08, 0x10, 0x10] (.ldxAbs 0x1010) [] = true ∧
    decodes [0x09, 0xFF, 0x0F] (.ldyAbs 0x0FFF) [] = true := by decide
theorem test_decode_immediate16 : decodes [0x0A, 0x05, 0x10] (.ldxImm 0x1005) [] = true ∧
    decodes [0x0B, 0x40, 0x00, 0x02] (.ldyImm 0x0040) [0x02] = true := by decide
theorem test_decode_indexed : decodes [0x0C, 0x02] (.ldaaX 0x02) [] = true ∧ decodes [0x0D, 0x02] (.ldaaY 0x02) [] = true ∧
    decodes [0x0E, 0x01] (.ldabX 0x01) [] = true ∧ decodes [0x0F, 0xFF] (.ldabY 0xFF) [] = true ∧
    decodes [0x10, 0x04] (.staaX 0x04) [] = true ∧ decodes [0x11, 0x01] (.staaY 0x01) [] = true ∧
    decodes [0x12, 0x10] (.stabX 0x10) [] = true ∧ decodes [0x13, 0x0F] (.stabY 0x0F) [] = true := by decide
theorem test_decode_alu : decodes [0x14] .sumBa [] = true ∧ decodes [0x15] .sumAb [] = true ∧ decodes [0x16] .andBa [] = true ∧
    decodes [0x17] .andAb [] = true ∧ decodes [0x18] .orBa [] = true ∧ decodes [0x19] .orAb [] = true ∧
    decodes [0x1A] .coma [] = true ∧ decodes [0x1B] .comb [] = true := by decide
theorem test_decode_shift_increment : decodes [0x1C] .shfaL [] = true ∧ decodes [0x1D] .shfaR [] = true ∧
    decodes [0x1E] .shfbL [] = true ∧ decodes [0x1F] .shfbR [] = true ∧ decodes [0x20] .inx [] = true ∧
    decodes [0x21] .iny [] = true := by decide
theorem test_decode_branch8 : decodes [0x22, 0x10] (.beq 0x10) [] = true ∧ decodes [0x23, 0x10] (.bne 0x10) [] = true ∧
    decodes [0x24, 0x00] (.bn 0x00) [] = true ∧ decodes [0x25, 0x20] (.bp 0x20) [] = true := by decide
theorem test_decode_branch16 : decodes [0x26, 0x34, 0x12] (.beq16 0x1234) [] = true ∧
    decodes [0x27, 0x00, 0x10] (.bne16 0x1000) [] = true ∧ decodes [0x28, 0x00, 0x00] (.bn16 0x0000) [] = true ∧
    decodes [0x29, 0x00, 0x20] (.bp16 0x2000) [] = true := by decide
theorem test_decode_refused_and_illegal : decodes [0x2A] (.undocumented 0x2A) [] = true ∧
    decodes [0x31, 0x05] (.undocumented 0x31) [0x05] = true ∧ decodes [0x32] (.illegal 0x32) [] = true ∧
    decodes [0xFF] (.illegal 0xFF) [] = true := by decide
/-- The host's numbering: the first byte is bits 7..0, and the bits above the given ones are 0. -/
theorem test_decode_table_word : decodeTableWord 24 0x123405 = some (.ldabAbs 0x1234) ∧
    decodeTableWord 8 0xFF0C = some (.ldaaX 0x00) ∧ decodeTableWord 16 0x7F02 = some (.ldaaImm 0x7F) := by decide
theorem test_decode_truncated : (match decode [0x26, 0x00] with | .error e => e | .ok _ => .noBytes) = .truncated 0x26 2 := by decide

/-! ### One step each (`95_test_vectors.md` sections 2.1 to 2.6) -/

theorem test_tab : gives (st 0x5A 0 0 0 0 [(0, [0x00])]) (st 0x5A 0x5A 0 0 1 [(0, [0x00])]) = true := by decide
theorem test_tba : gives (st 0 0x80 0 0 0 [(0, [0x01])]) (st 0x80 0x80 0 0 1 [(0, [0x01])]) = true := by decide
theorem test_ldaaImm : gives (st 0 0 0 0 0 [(0, [0x02, 0xFF])]) (st 0xFF 0 0 0 2 [(0, [0x02, 0xFF])]) = true := by decide
theorem test_ldabImm : gives (st 0 0x33 0 0 0 [(0, [0x03, 0])]) (st 0 0 0 0 2 [(0, [0x03, 0])]) = true := by decide
theorem test_ldaaImm_last_byte : raises (st 3 0 0 0 0x1FFF [(0x1FFF, [0x02])]) (.outOfBounds 0x2000) = true := by decide

theorem test_ldaaAbs : gives (st 0 0 0 0 0 [(0, [0x04, 0, 0x10]), (0x1000, [0x33])])
    (st 0x33 0 0 0 3 [(0, [0x04, 0, 0x10]), (0x1000, [0x33])]) = true := by decide
theorem test_ldaaAbs_unbacked : raises (st 0x11 0 0 0 0 [(0, [0x04, 0, 0x20])]) (.outOfBounds 0x2000) = true := by decide
theorem test_ldabAbs : gives (st 0 0 0 0 0 [(0, [0x05])]) (st 0 5 0 0 3 [(0, [0x05])]) = true := by decide
theorem test_staaAbs : gives (st 0x42 0 0 0 0 [(0, [0x06, 0xFF, 0x1F])])
    (st 0x42 0 0 0 3 [(0, [0x06, 0xFF, 0x1F]), (0x1FFF, [0x42])]) = true := by decide
theorem test_staaAbs_rom : raises (st 0x42 0 0 0 0 [(0, [0x06, 0x50, 0x00])]) (.readOnlyViolation 0x0050) = true := by decide
theorem test_stabAbs : gives (st 0 0x42 0 0 0 [(0, [0x07, 0x00, 0x10])])
    (st 0 0x42 0 0 3 [(0, [0x07, 0x00, 0x10]), (0x1000, [0x42])]) = true := by decide
theorem test_stabAbs_stops : raises (st 0 1 0 0 0 [(0, [0x07, 0, 0x20])]) (.outOfBounds 0x2000) = true ∧
    raises (st 0 1 0 0 0 [(0, [0x07, 0xFF, 0x0F])]) (.readOnlyViolation 0x0FFF) = true := by decide
theorem test_ldxAbs : gives (st 0 0 0 0 0 [(0, [0x08, 0x10, 0x10]), (0x1010, [0x34, 0x12])])
    (st 0 0 0x1234 0 3 [(0, [0x08, 0x10, 0x10]), (0x1010, [0x34, 0x12])]) = true := by decide
theorem test_ldxAbs_last_byte : raises (st 0 0 0x7777 0 0 [(0, [0x08, 0xFF, 0x1F])]) (.outOfBounds 0x2000) = true := by decide
theorem test_ldyAbs : gives (st 0 0 0 0 0x10 [(0x10, [0x09, 0xFF, 0x0F]), (0x1000, [0x10])])
    (st 0 0 0 0x1000 0x13 [(0x10, [0x09, 0xFF, 0x0F]), (0x1000, [0x10])]) = true := by decide
theorem test_ldyAbs_unbacked : raises (st 0 0 0 7 0 [(0, [0x09, 0xFF, 0xFF])]) (.outOfBounds 0xFFFF) = true := by decide
theorem test_ldxImm : gives (st 0 0 0 0 0 [(0, [0x0A, 0x05, 0x10])]) (st 0 0 0x1005 0 3 [(0, [0x0A, 0x05, 0x10])]) = true := by decide
theorem test_ldyImm : gives (st 0 0 0 0 0 [(0, [0x0B, 0xFF, 0xFF])]) (st 0 0 0 0xFFFF 3 [(0, [0x0B, 0xFF, 0xFF])]) = true := by decide

theorem test_ldaaX : gives (st 0 0 0x1005 0 0 [(0, [0x0C, 0x02]), (0x1007, [0xAB])])
    (st 0xAB 0 0x1005 0 2 [(0, [0x0C, 0x02]), (0x1007, [0xAB])]) = true := by decide
/-- The effective address wraps modulo 0x10000 (D7). -/
theorem test_ldaaY_wraps : gives (st 0 0 0 0xFFFF 0x100 [(1, [0x0D]), (0x100, [0x0D, 0x02])])
    (st 0x0D 0 0 0xFFFF 0x102 [(1, [0x0D]), (0x100, [0x0D, 0x02])]) = true := by decide
theorem test_ldabX_unbacked : raises (st 0 0x99 0x1FFF 0 0 [(0, [0x0E, 0x01])]) (.outOfBounds 0x2000) = true := by decide
theorem test_ldabX : gives (st 0 0 0x1000 0 0 [(0, [0x0E, 0x80]), (0x1080, [0x21])])
    (st 0 0x21 0x1000 0 2 [(0, [0x0E, 0x80]), (0x1080, [0x21])]) = true := by decide
/-- The offset is unsigned: 0xFF is 255 (R96). -/
theorem test_ldabY : gives (st 0 0 0 0x1000 0 [(0, [0x0F, 0xFF]), (0x10FF, [0x77])])
    (st 0 0x77 0 0x1000 2 [(0, [0x0F, 0xFF]), (0x10FF, [0x77])]) = true := by decide
theorem test_staaX : gives (st 0x11 0 0x1000 0 0 [(0, [0x10, 0x04])])
    (st 0x11 0 0x1000 0 2 [(0, [0x10, 0x04]), (0x1004, [0x11])]) = true := by decide
theorem test_staaX_wraps_into_rom : raises (st 0x11 0 0xFFFF 0 0 [(0, [0x10, 0x01])]) (.readOnlyViolation 0x0000) = true := by decide
theorem test_staaY : gives (st 0x22 0 0 0x0FFF 0 [(0, [0x11, 0x01])])
    (st 0x22 0 0 0x0FFF 2 [(0, [0x11, 0x01]), (0x1000, [0x22])]) = true := by decide
theorem test_stabX_rom : raises (st 0 1 0x0F00 0 0 [(0, [0x12, 0x10])]) (.readOnlyViolation 0x0F10) = true := by decide
theorem test_stabX : gives (st 0 7 0x0FFF 0 0 [(0, [0x12, 0x02])])
    (st 0 7 0x0FFF 0 2 [(0, [0x12, 0x02]), (0x1001, [7])]) = true := by decide
theorem test_stabY : gives (st 0 0x5C 0 0x1FF0 0 [(0, [0x13, 0x0F])])
    (st 0 0x5C 0 0x1FF0 2 [(0, [0x13, 0x0F]), (0x1FFF, [0x5C])]) = true := by decide
/-- A store of 0 over a listed byte leaves no entry (the canonical form). -/
theorem test_stabY_zero : gives (st 0 0 0 0x1FF0 0 [(0, [0x13, 0x0F]), (0x1FFF, [9])])
    (st 0 0 0 0x1FF0 2 [(0, [0x13, 0x0F])]) = true := by decide

theorem test_sumBa : gives (st 0xFF 1 0 0 0 [(0, [0x14])]) (st 0 1 0 0 1 [(0, [0x14])]) = true ∧
    gives (st 0x10 0x22 0 0 0 [(0, [0x14])]) (st 0x32 0x22 0 0 1 [(0, [0x14])]) = true := by decide
theorem test_sumAb : gives (st 0x80 0x80 0 0 0 [(0, [0x15])]) (st 0x80 0 0 0 1 [(0, [0x15])]) = true := by decide
theorem test_andBa : gives (st 0xF0 0x3C 0 0 0 [(0, [0x16])]) (st 0x30 0x3C 0 0 1 [(0, [0x16])]) = true := by decide
theorem test_andAb : gives (st 0x0F 0xAA 0 0 0 [(0, [0x17])]) (st 0x0F 0x0A 0 0 1 [(0, [0x17])]) = true := by decide
theorem test_orBa : gives (st 0x01 0x80 0 0 0 [(0, [0x18])]) (st 0x81 0x80 0 0 1 [(0, [0x18])]) = true := by decide
theorem test_orAb : gives (st 0x0C 0x30 0 0 0 [(0, [0x19])]) (st 0x0C 0x3C 0 0 1 [(0, [0x19])]) = true := by decide
theorem test_coma : gives (st 0x5A 1 0 0 0 [(0, [0x1A])]) (st 0xA5 1 0 0 1 [(0, [0x1A])]) = true := by decide
theorem test_comb : gives (st 1 0xFF 0 0 0 [(0, [0x1B])]) (st 1 0 0 0 1 [(0, [0x1B])]) = true := by decide
theorem test_shfaL : gives (st 0x80 1 0 0 0 [(0, [0x1C])]) (st 0 1 0 0 1 [(0, [0x1C])]) = true ∧
    gives (st 0x41 1 0 0 0 [(0, [0x1C])]) (st 0x82 1 0 0 1 [(0, [0x1C])]) = true := by decide
theorem test_shfaR : gives (st 0xFF 1 0 0 0 [(0, [0x1D])]) (st 0x7F 1 0 0 1 [(0, [0x1D])]) = true ∧
    gives (st 1 1 0 0 0 [(0, [0x1D])]) (st 0 1 0 0 1 [(0, [0x1D])]) = true := by decide
theorem test_shfbL : gives (st 1 0xFF 0 0 0 [(0, [0x1E])]) (st 1 0xFE 0 0 1 [(0, [0x1E])]) = true := by decide
theorem test_shfbR : gives (st 1 0x80 0 0 0 [(0, [0x1F])]) (st 1 0x40 0 0 1 [(0, [0x1F])]) = true := by decide
theorem test_inx : gives (st 0 0 0xFFFF 5 0 [(0, [0x20])]) (st 0 0 0 5 1 [(0, [0x20])]) = true ∧
    gives (st 0 0 0x1FFF 5 0 [(0, [0x20])]) (st 0 0 0x2000 5 1 [(0, [0x20])]) = true := by decide
theorem test_iny : gives (st 0 0 5 0x10FF 0 [(0, [0x21])]) (st 0 0 5 0x1100 1 [(0, [0x21])]) = true := by decide

theorem test_beq_taken : gives (st 0 0 0 0 0x0ABC [(0x0ABC, [0x22, 0x10])]) (st 0 0 0 0 0x0A10 [(0x0ABC, [0x22, 0x10])]) = true := by decide
theorem test_beq_not_taken : gives (st 1 0 0 0 0x0ABC [(0x0ABC, [0x22, 0x10])]) (st 1 0 0 0 0x0ABE [(0x0ABC, [0x22, 0x10])]) = true := by
  decide
theorem test_bne_taken : gives (st 0x80 0 0 0 0x0ABC [(0x0ABC, [0x23, 0x10])]) (st 0x80 0 0 0 0x0A10 [(0x0ABC, [0x23, 0x10])]) = true := by
  decide
theorem test_bne_not_taken : gives (st 0 0 0 0 0x0ABC [(0x0ABC, [0x23, 0x10])]) (st 0 0 0 0 0x0ABE [(0x0ABC, [0x23, 0x10])]) = true := by
  decide
theorem test_bn_taken : gives (st 0x80 0 0 0 0xFE [(0xFE, [0x24, 0x00])]) (st 0x80 0 0 0 0 [(0xFE, [0x24, 0x00])]) = true := by decide
theorem test_bn_not_taken : gives (st 0x7F 0 0 0 0xFE [(0xFE, [0x24, 0x00])]) (st 0x7F 0 0 0 0x100 [(0xFE, [0x24, 0x00])]) = true := by decide
/-- The page is that of the opcode byte, though the operand byte lies in the next page (D10). -/
theorem test_bp_taken_at_page_end : gives (st 0 0 0 0 0x0AFF [(0x0AFF, [0x25, 0x20])]) (st 0 0 0 0 0x0A20 [(0x0AFF, [0x25, 0x20])]) = true := by
  decide
theorem test_bp_not_taken_at_page_end :
    gives (st 0xFF 0 0 0 0x0AFF [(0x0AFF, [0x25, 0x20])]) (st 0xFF 0 0 0 0x0B01 [(0x0AFF, [0x25, 0x20])]) = true := by decide
/-- The operand byte of a branch that is not taken is fetched (D33). -/
theorem test_untaken_branch_at_last_byte : raises (st 1 0 0 0 0x1FFF [(0x1FFF, [0x22])]) (.outOfBounds 0x2000) = true := by decide
theorem test_beq16 : gives (st 0 0 0 0 0x100 [(0x100, [0x26, 0x34, 0x12])]) (st 0 0 0 0 0x1234 [(0x100, [0x26, 0x34, 0x12])]) = true ∧
    gives (st 1 0 0 0 0x100 [(0x100, [0x26, 0x34, 0x12])]) (st 1 0 0 0 0x103 [(0x100, [0x26, 0x34, 0x12])]) = true := by decide
theorem test_bne16 : gives (st 5 0 0 0 0x100 [(0x100, [0x27, 0x00, 0x10])]) (st 5 0 0 0 0x1000 [(0x100, [0x27, 0x00, 0x10])]) = true ∧
    gives (st 0 0 0 0 0x100 [(0x100, [0x27, 0x00, 0x10])]) (st 0 0 0 0 0x103 [(0x100, [0x27, 0x00, 0x10])]) = true := by decide
theorem test_bn16 : gives (st 0x7F 0 0 0 0x100 [(0x100, [0x28, 0, 0])]) (st 0x7F 0 0 0 0x103 [(0x100, [0x28, 0, 0])]) = true ∧
    gives (st 0xFF 0 0 0 0x100 [(0x100, [0x28, 0, 0])]) (st 0xFF 0 0 0 0 [(0x100, [0x28, 0, 0])]) = true := by decide
theorem test_bp16 : gives (st 0 0 0 0 0x100 [(0x100, [0x29, 0, 0x20])]) (st 0 0 0 0 0x2000 [(0x100, [0x29, 0, 0x20])]) = true ∧
    gives (st 0x80 0 0 0 0x100 [(0x100, [0x29, 0, 0x20])]) (st 0x80 0 0 0 0x103 [(0x100, [0x29, 0, 0x20])]) = true := by decide

theorem test_illegal : raises (st 0 0 0 0 0 [(0, [0x32])]) (.unknownInstruction 0x32 0) = true ∧
    raises (st 0 0 0 0 0x123 [(0x123, [0xFF])]) (.unknownInstruction 0xFF 0x123) = true := by decide
theorem test_undocumented : refuses (st 0 0 0 0 0 [(0, [0x2A])]) (.undocumentedOpcode 0x2A) = true ∧
    refuses (st 0 0 0 0 0 [(0, [0x31])]) (.undocumentedOpcode 0x31) = true := by decide
theorem test_fetch_unbacked : raises (st 0 0 0 0 0x2000 []) (.outOfBounds 0x2000) = true ∧
    raises (st 0 0 0 0 0xFFFF []) (.outOfBounds 0xFFFF) = true := by decide
theorem test_fault_state_stops : stops { st 0 0 0 0 0 [(0, [0x00])] with fault := some (.outOfBounds 0x2000) }
    (.stopped (.outOfBounds 0x2000)) = true := by decide
/-- The numeric codes of the errors (R251, D30). -/
theorem test_error_codes : (FaultRecord.outOfBounds 0).code = 1 ∧ (FaultRecord.readOnlyViolation 0).code = 2 ∧
    (FaultRecord.unknownInstruction 0 0).code = 3 := by decide
/-- The host's word at PC is what the next step runs, also from reset. -/
theorem test_withFetchWord : gives (State.reset.withFetchWord 24 0x10050A) (st 0 0 0x1005 0 3 [(0, [0x0A, 0x05, 0x10])]) = true := by decide

/-! ### The assembler (`95_test_vectors.md` section 2.7 and program P1) -/

/-- The bytes assembly writes. -/
def assembled (src : List String) : Option Sparse :=
  match assemble (src.map String.toList) with
  | .ok out => some out.memory
  | .error _ => none

/-- The error assembly ends in: its kind and source line. -/
def assemblyError (src : List String) : Option (AsmErrorKind × Nat) :=
  match assemble (src.map String.toList) with
  | .ok _ => none
  | .error e => some (e.kind, e.line)

theorem test_asm_literals : assembled ["ldaa #$7f"] = some [(0, 0x02), (1, 0x7F)] ∧
    assembled ["LDAA #%1010"] = some [(0, 0x02), (1, 0x0A)] ∧
    assembled ["ldx #4101"] = some [(0, 0x0A), (1, 0x05), (2, 0x10)] := by decide
theorem test_asm_indexed_and_masked : assembled ["staa $02,x"] = some [(0, 0x10), (1, 0x02)] ∧
    assembled ["ldaa #300"] = some [(0, 0x02), (1, 0x2C)] := by decide
theorem test_asm_equ : assembled ["n: equ $10", " ldab #n"] = some [(0, 0x03), (1, 0x10)] ∧
    assemblyError ["n: equ $10", "m: equ n", " ldab #m"] = some (.unknownInstruction, 3) := by decide
theorem test_asm_errors : assemblyError ["staa #5"] = some (.unknownInstruction, 1) ∧
    assemblyError ["org $0010", "dc.b 1,2", "org $0011", "dc.b 3"] = some (.duplicateDefinition, 4) := by decide
theorem test_asm_comments : assembled ["tab ; comment"] = some [(0, 0x00)] ∧ assembled ["tab @ comment"] = some [(0, 0x00)] := by decide
theorem test_asm_forward_label : assembled ["start: beq end", "tab", "end: tab"] = some [(0, 0x22), (1, 0x03), (2, 0x00), (3, 0x00)] := by
  decide

/-- Of two label lines in succession the second is not merged onward (log 31). -/
theorem test_asm_label_lines : assembled ["a:", "tab"] = some [(0, 0x00)] ∧
    assemblyError ["a:", "b:", "tab"] = some (.unknownInstruction, 2) := by decide

/-- A directive that writes no byte is not fatal at 0x2000, one that writes a byte is (log 32, D26). -/
theorem test_asm_end_of_memory : assembled ["org $1fff", "db 1", "e: ds.b 0", "org 0"] = some [(0x1FFF, 1)] ∧
    assemblyError ["org $1fff", "db 1", "e: ds.b 1"] = some (.outOfBounds, 3) := by decide

/-- Program P1. -/
def p1 : List String :=
  ["        org $0000", "start:  ldaa #5", "        ldab #7", "        sum_ba", "        staa $1000", "done:   beq16 done",
   "        bne16 done"]

/-- The bytes of P1. -/
def p1Bytes : Sparse :=
  [(0, 0x02), (1, 0x05), (2, 0x03), (3, 0x07), (4, 0x14), (5, 0x06), (6, 0x00), (7, 0x10)] ++
  [(8, 0x26), (9, 0x08), (10, 0x00), (11, 0x27), (12, 0x08), (13, 0x00)]

theorem test_asm_p1 : assembled p1 = some p1Bytes := by decide

/-! ### Images (`95_test_vectors.md` section 4) -/

theorem test_image_body_of_p1 : bodyLines 0 (Sparse.rom p1Bytes) = (
    ["0 : 2;", "1 : 5;", "2 : 3;", "3 : 7;", "4 : 14;", "5 : 6;", "6 : 0;", "7 : 10;", "8 : 26;", "9 : 8;", "A : 0;", "B : 27;",
     "C : 8;", "D : 0;", "[E..FFF] : 0;"].map String.toList) := by decide
theorem test_ram_image_of_p1 : ramImage p1Bytes = joinLines (imageHeader ++ ["[0..FFF] : 0;".toList, "END;".toList]) := by decide

/-- The segments of an image whose body is the given lines. -/
def segmentsOf (body : List String) : Option (List Segment) :=
  match parseImage (joinLines (imageHeader ++ body.map String.toList)) with
  | .ok segs => some segs
  | .error _ => none

theorem test_image_reader : segmentsOf ["[ 0 .. 00f ] : 1f;", "10:2;", "END;"] = some [⟨0, 15, 0x1F⟩, ⟨16, 16, 2⟩] := by decide
/-- An address named twice, an address past the image, a wrong character, a missing END line (R73, D31), and a carriage
return before the line feed (log 30). -/
theorem test_image_reader_malformed : segmentsOf ["[0..3] : 1;", "2 : 2;", "END;"] = none ∧ segmentsOf ["1000 : 1;", "END;"] = none ∧
    segmentsOf ["0 = 1;", "END;"] = none ∧ segmentsOf ["0 : 1;"] = none ∧
    segmentsOf ["0 : 1;\r", "END;"] = none := by decide

/-! ### Host agents (D16, D17, R265 to R267) -/

/-- Cells at 0x1000 to 0x1002, two input lines at 0x1010. -/
def cells : Mmio := { base := 0x1000, inputOffset := 0x10, inputCount := 2 }

/-- The default map, these cells, host writes between accesses, a breakpoint at 0x0001. -/
def params : Params := { opcodeMap := defaultMap, initRegs := InitRegs.zero, mmio := cells, interleave := .betweenAccesses, stopSet := [1] }

/-- The X a step leaves. -/
def xAfter : StepResult → Option Word
  | .next s => some s.x
  | .fault _ => none
  | .refused _ => none

/-- `ldx $1000` with both control bytes rewritten between its two data accesses: the old low byte and the new high byte
(D16); between steps the read is not torn. -/
theorem test_torn_ldx :
    xAfter (stepBetweenAccesses defaultMap cells [[], [], [], [], [⟨0x1000, 0x34⟩, ⟨0x1001, 0x12⟩]]
      (st 0 0 0 0 0 [(0, [0x08, 0x00, 0x10]), (0x1000, [0x78, 0x56])])) = some 0x1278 ∧
    xAfter (stepBetweenSteps defaultMap cells [[], [], [], [], [⟨0x1000, 0x34⟩, ⟨0x1001, 0x12⟩]]
      (st 0 0 0 0 0 [(0, [0x08, 0x00, 0x10]), (0x1000, [0x78, 0x56])])) = some 0x1234 := by decide
/-- A value other than 0 or 1 is no write to an input line, and a write outside the cells is none of the host's (R262, R67). -/
theorem test_host_writes : (hostWrites cells [] [⟨0x1010, 1⟩, ⟨0x1011, 2⟩, ⟨0x1003, 9⟩, ⟨0x1002, 9⟩]) = [(0x1002, 9), (0x1010, 1)] := by decide
/-- The breakpoint is tested on the PC a step leaves, not on the one it starts from (D34), and the signal before the step. -/
theorem test_drive :
    drive params [⟨false, []⟩, ⟨false, []⟩] (st 0 0 0 0 1 []) = .unfinished (st 0 0 0 0 3 []) ∧
    drive params [⟨false, []⟩, ⟨false, []⟩] (st 0 0 0 0 0 []) = .stopped (st 0 0 0 0 1 []) ∧
    drive params [⟨true, []⟩] (st 0 0 0 0 0 []) = .cancelled (st 0 0 0 0 0 []) := by decide
/-- The host write of a cancelled iteration takes no effect, that of the iteration before does (log 33). -/
theorem test_drive_cancelled_writes : drive { params with stopSet := [] }
    [⟨false, [[⟨0x1000, 7⟩]]⟩, ⟨true, [[⟨0x1001, 8⟩]]⟩] (st 0 0 0 0 0 []) = .cancelled (st 0 0 0 0 1 [(0x1000, [7])]) := by decide
/-- `step 2` passes the breakpoint (R264). -/
theorem test_debug_step : debugStep params [⟨false, []⟩, ⟨false, []⟩] (st 0 0 0 0 0 []) = .unfinished (st 0 0 0 0 2 []) := by decide

/-! ### Witnesses: values that meet the hypotheses of each obligation that has hypotheses -/

/-- A state in which most witnesses hold: `ldaa #5` at 0x0100, A = 0x20, X = Y = 0x1000. -/
def w : State := st 0x20 0x80 0x1000 0x1000 0x100 [(0x100, [0x02, 0x05])]

theorem witness_inv : w.Inv := by unfold State.Inv; decide

theorem witness_StepRunsTheDecodedInstruction : w.fault = none ∧
    decodes [w.mem.get w.pc.toNat, w.mem.get (w.pc.toNat + 1), w.mem.get (w.pc.toNat + 2)] (.ldaaImm 5) [0] = true ∧
    w.pc.toNat + (Instr.ldaaImm 5).length ≤ 0x2000 := by decide
theorem witness_OpcodeFetchOutOfBoundsRaises : (st 0 0 0 0 0x2000 []).fault = none ∧ 0x2000 ≤ (st 0 0 0 0 0x2000 []).pc.toNat := by decide
/-- One operand byte missing at 0x1FFF, and both bytes wanted with one missing at 0x1FFE. -/
theorem witness_OperandFetchOutOfBoundsRaises :
    let s := st 0 0 0 0 0x1FFF [(0x1FFF, [0x02])]
    let t := st 0 0 0 0 0x1FFE [(0x1FFE, [0x26])]
    (s.fault = none ∧ s.pc.toNat < 0x2000 ∧ 0x2000 ≤ s.pc.toNat + operandCountAt defaultMap (s.mem.get s.pc.toNat)) ∧
    (t.fault = none ∧ t.pc.toNat < 0x2000 ∧ 0x2000 ≤ t.pc.toNat + operandCountAt defaultMap (t.mem.get t.pc.toNat)) := by decide
theorem witness_OpcodeAboveRangeRaisesUnknownInstruction :
    let s := st 0 0 0 0 0x1FFF [(0x1FFF, [0x32])]
    s.fault = none ∧ s.pc.toNat < 0x2000 ∧ 0x32 ≤ (s.mem.get s.pc.toNat).toNat := by decide
theorem witness_UndocumentedOpcodeIsRefused :
    let s := st 0 0 0 0 0x1FFF [(0x1FFF, [0x31])]
    s.fault = none ∧ s.pc.toNat < 0x2000 ∧ (s.mem.get s.pc.toNat).toNat < 0x32 ∧ defaultMap.formAt (s.mem.get s.pc.toNat) = none ∧
    defaultMap.formAt 0x29 ≠ none ∧ defaultMap.formAt 0x2A = none := by decide
theorem witness_OnlyUndocumentedOpcodesAreRefused :
    stepWith defaultMap (st 0 0 0 0 0 [(0, [0x2A])]) = .refused (.undocumentedOpcode 0x2A) := by rfl
theorem witness_DecodeOfEncodeIsIdentity : defaultMap.valid = true ∧ (Instr.ldxImm 0xFFFF).wfUnder defaultMap = true ∧
    (Instr.illegal 0xFF).wfUnder defaultMap = true := by decide
theorem witness_EncodeOfDecodeIsIdentity : OpcodeMap.valid defaultMap.reverse = true ∧
    decodeWith defaultMap.reverse [0x31, 0x07] = .ok (.tab, [0x07]) := ⟨by decide, rfl⟩
theorem witness_OpcodeAloneGivesTheLength : decodeWith defaultMap (0x02 :: [1]) = .ok (.ldaaImm 1, []) ∧
    decodeWith defaultMap (0x02 :: [2, 3]) = .ok (.ldaaImm 2, [3]) := ⟨rfl, rfl⟩
theorem witness_PlacedWordIsTheNextInstruction : State.reset.Inv ∧ State.reset.fault = none ∧ State.reset.pc.toNat + 3 ≤ 0x2000 ∧
    decodeTableWord 8 0x14 = some .sumBa ∧ (st 0 0 0 0 0x1FFD []).pc.toNat + 3 ≤ 0x2000 := by
  refine ⟨rfl, rfl, ?_, ?_, ?_⟩ <;> decide
/-- The boundary addresses of the clauses about loads: 0x1FFF is the last backed byte and 0x2000 the first unbacked one. -/
theorem witness_AbsoluteByteLoadResults : (0x1FFF : Word).toNat < 0x2000 ∧ 0x2000 ≤ (0x2000 : Word).toNat := by decide
theorem witness_AbsoluteWordLoadResults :
    (0x0502 : Word).toNat = (w.mem.get ((0x0100 : Word).toNat + 1)).toNat * 256 + (w.mem.get (0x0100 : Word).toNat).toNat ∧
    (0x1FFE : Word).toNat < 0x1FFF ∧ (0x1FFF : Word).toNat = 0x1FFF ∧ 0x2000 ≤ (0x2000 : Word).toNat ∧
    (0 : Word).toNat = (w.mem.get ((0x1FFE : Word).toNat + 1)).toNat * 256 + (w.mem.get (0x1FFE : Word).toNat).toNat := by decide
/-- The boundary addresses of the clauses about stores. -/
theorem witness_AbsoluteStoreResults : w.mem.wf = true ∧ 0x1000 ≤ (0x1000 : Word).toNat ∧ (0x1FFF : Word).toNat < 0x2000 ∧
    (0x0FFF : Word).toNat < 0x1000 ∧ 0x2000 ≤ (0x2000 : Word).toNat := by decide
/-- X = Y = 0x1000, so d = 0xFF reaches 0x10FF; an index of 0x1F01 with d = 0xFF reaches 0x2000, and 0xFFFF with 1 wraps. -/
theorem witness_IndexedLoadResults : (0x10FF : Word).toNat = (w.x.toNat + (0xFF : Byte).toNat) % 0x10000 ∧
    (0x10FF : Word).toNat = (w.y.toNat + (0xFF : Byte).toNat) % 0x10000 ∧ (0x10FF : Word).toNat < 0x2000 ∧
    (0x2000 : Word).toNat = ((0x1F01 : Word).toNat + (0xFF : Byte).toNat) % 0x10000 ∧
    (0x0000 : Word).toNat = ((0xFFFF : Word).toNat + (1 : Byte).toNat) % 0x10000 := by decide
theorem witness_IndexedByXStoreResults : w.mem.wf = true ∧ (0x1000 : Word).toNat = (w.x.toNat + (0 : Byte).toNat) % 0x10000 ∧
    (0x0FFF : Word).toNat = ({ w with x := 0x0FFF }.x.toNat + (0 : Byte).toNat) % 0x10000 ∧
    (0x2000 : Word).toNat = ({ w with x := 0x1FFF }.x.toNat + (1 : Byte).toNat) % 0x10000 := by decide
theorem witness_IndexedByYStoreResults : w.mem.wf = true ∧ (0x1000 : Word).toNat = (w.y.toNat + (0 : Byte).toNat) % 0x10000 ∧
    (0x0FFF : Word).toNat = ({ w with y := 0x0FFF }.y.toNat + (0 : Byte).toNat) % 0x10000 ∧
    (0x2000 : Word).toNat = ({ w with y := 0x1FFF }.y.toNat + (1 : Byte).toNat) % 0x10000 := by decide
theorem witness_SumResults : (0xA0 : Byte).toNat = (w.a.toNat + w.b.toNat) % 256 := by decide
theorem witness_BitwiseResults : (∀ k, k < 8 → (0x00 : Byte).getLsbD k = (w.a.getLsbD k && w.b.getLsbD k)) ∧
    (∀ k, k < 8 → (0xA0 : Byte).getLsbD k = (w.a.getLsbD k || w.b.getLsbD k)) := by decide
theorem witness_ComplementResults : (0xDF : Byte).toNat = 0xFF - w.a.toNat ∧ (0x7F : Byte).toNat = 0xFF - w.b.toNat := by decide
theorem witness_ShiftResults : (0x40 : Byte).toNat = 2 * w.a.toNat % 256 ∧ (0x10 : Byte).toNat = w.a.toNat / 2 ∧
    (0x00 : Byte).toNat = 2 * w.b.toNat % 256 ∧ (0x40 : Byte).toNat = w.b.toNat / 2 := by decide
theorem witness_IncrementResults : (0x1001 : Word).toNat = (w.x.toNat + 1) % 0x10000 ∧ (0x1001 : Word).toNat = (w.y.toNat + 1) % 0x10000 ∧
    (0 : Word).toNat = ({ w with x := 0xFFFF }.x.toNat + 1) % 0x10000 := by decide
theorem witness_PageBranchResults : (0x01FF : Word).toNat = w.pc.toNat / 256 * 256 + (0xFF : Byte).toNat ∧
    (0xFF00 : Word).toNat = { w with pc := 0xFFFE }.pc.toNat / 256 * 256 + (0 : Byte).toNat := by decide
theorem witness_RegistersNotWrittenAreUnchanged : exec .inx w = .next { w with x := 0x1001, pc := 0x101 } ∧ writesA .inx = false ∧
    writesB .inx = false ∧ writesX .tab = false ∧ writesY .inx = false := ⟨rfl, rfl, rfl, rfl, rfl⟩
theorem witness_RegistersNotReadDoNotMatter : exec .tba w = .next { w with a := 0x80, pc := 0x101 } ∧ readsA .tba = false ∧
    readsB .tab = false ∧ readsX .tba = false ∧ readsY .tba = false := ⟨rfl, rfl, rfl, rfl, rfl⟩
theorem witness_NonStoringInstructionsKeepMemory : storeAddress (.ldaaAbs 0x1000) w = none ∧
    exec (.ldaaAbs 0x1000) w = .next { w with a := 0, pc := 0x103 } := ⟨rfl, rfl⟩
/-- A store that completes at 0x1000, one that raises below RAM and one that raises above it. -/
theorem witness_StoresChangeOnlyTheirByte : storeAddress (.staaX 0) w = some 0x1000 ∧
    exec (.staaX 0) w = .next { w with mem := bytesAt [(0x100, [0x02, 0x05]), (0x1000, [0x20])], pc := 0x102 } ∧
    storeAddress (.stabAbs 0x0FFF) w = some 0x0FFF ∧
    exec (.stabAbs 0x0FFF) w = .next { w with fault := some (.readOnlyViolation 0x0FFF) } ∧
    exec (.stabAbs 0x2000) w = .next { w with fault := some (.outOfBounds 0x2000) } := ⟨rfl, rfl, rfl, rfl, rfl⟩
theorem witness_FaultChangesOnlyByRaising : exec (.ldaaAbs 0x2000) w = .next { w with fault := some (.outOfBounds 0x2000) } := rfl
theorem witness_NonBranchAdvancesByItsLength : isBranch (.ldxImm 7) = false ∧ w.fault = none ∧
    exec (.ldxImm 7) w = .next { w with x := 7, pc := 0x103 } ∧ exec .tab { w with pc := 0xFFFF } = .next { w with b := 0x20, pc := 0 } :=
  ⟨rfl, rfl, rfl, rfl⟩
theorem witness_RegisterInstructionsNeverRaise : Instr.tab.form = some .tab ∧ Form.tab.format = .inh ∧ Form.ldaaImm.format = .imm8 ∧
    Form.ldxImm.format = .imm16 ∧ Form.beq.format = .br8 ∧ Form.bp16.format = .br16 := by decide
theorem witness_FaultStateIsTerminal : { w with fault := some (.outOfBounds 0x2000) }.fault = some (.outOfBounds 0x2000) ∧
    stepWith defaultMap { w with fault := some (.outOfBounds 0x2000) } = .fault (.stopped (.outOfBounds 0x2000)) ∧
    stepWith defaultMap w = .next { w with a := 5, pc := 0x102 } := ⟨rfl, rfl, rfl⟩
/-- A step that raises: `ldaa #` at 0x1FFF. -/
theorem witness_ErrorsArePrecise : stepWith defaultMap (st 3 0 0 0 0x1FFF [(0x1FFF, [0x02])]) =
    .next { st 3 0 0 0 0x1FFF [(0x1FFF, [0x02])] with fault := some (.outOfBounds 0x2000) } := by rfl
/-- One step for each kind of record, and for OutOfBounds one for each access that can fail: the opcode fetch, an operand
fetch, a data access, and the second data access of `ldx` alone. -/
theorem witness_ErrorRecordsNameTheirCause :
    raises (st 0 0 0 0 0x2001 []) (.outOfBounds 0x2001) = true ∧
    raises (st 0 0 0 0 0x1FFE [(0x1FFE, [0x26])]) (.outOfBounds 0x2000) = true ∧
    raises (st 0 0 0 0 0 [(0, [0x04, 1, 0x20])]) (.outOfBounds 0x2001) = true ∧
    raises (st 0 0 0 0 0 [(0, [0x08, 0xFF, 0x1F])]) (.outOfBounds 0x2000) = true ∧
    raises (st 0 0 0 0 0 [(0, [0x06, 0xFF, 0x0F])]) (.readOnlyViolation 0x0FFF) = true ∧
    raises (st 0 0 0 0 0 [(0, [0x32])]) (.unknownInstruction 0x32 0) = true := by decide
theorem witness_ReadAfterWrite : w.mem.wf = true ∧ (0x0FFF : Word) ≠ 0x1000 ∧
    memWrite w.mem 0x1000 7 = .ok (bytesAt [(0x100, [0x02, 0x05]), (0x1000, [7])]) := ⟨rfl, by decide, rfl⟩
theorem witness_StepKeepsMemoryCanonical : w.Inv ∧ stepWith defaultMap w = .next { w with a := 5, pc := 0x102 } := ⟨witness_inv, rfl⟩
/-- A step, a store to the last byte of ROM, a read of it, and a fetch whose last possible byte is in ROM. -/
theorem witness_RomIsReadableAndNeverWritten : stepWith defaultMap w = .next { w with a := 5, pc := 0x102 } ∧
    storeAddress (.staaY 0) { w with y := 0x0FFF } = some 0x0FFF ∧ (0x0FFF : Word).toNat < 0x1000 ∧
    { w with pc := 0x0FFD }.pc.toNat + 2 < 0x1000 := ⟨rfl, rfl, by decide, by decide⟩
/-- A state whose step stores A = 0x20 at 0x1000. -/
def ws : State := st 0x20 0 0x1000 0 0 [(0, [0x10, 0])]
theorem witness_OnlyAStoreChangesMemory : ws.Inv ∧
    stepWith defaultMap ws = .next { ws with mem := bytesAt [(0, [0x10, 0]), (0x1000, [0x20])], pc := 2 } ∧
    (bytesAt [(0, [0x10, 0]), (0x1000, [0x20])]).get 0x1000 ≠ ws.mem.get 0x1000 := ⟨rfl, rfl, by decide⟩
/-- A store of B = 0x80 that becomes the operand byte of the instruction right after it, at the lowest RAM address, and a
store of A = 0x20, the opcode of `inx`, to the last byte of memory, fetched there. -/
theorem witness_FetchSeesEveryStoredByte :
    let s := { w with pc := 0x0FFD, mem := bytesAt [(0x0FFD, [0x12, 0x00, 0x02])] }
    let u := { s with mem := bytesAt [(0x0FFD, [0x12, 0x00, 0x02]), (0x1000, [0x80])], pc := 0x0FFF }
    (s.mem.wf = true ∧ (Instr.stabX 0).form ∈ [some .stabAbs, some .stabX, some .stabY] ∧ storeAddress (.stabX 0) s = some 0x1000 ∧
      exec (.stabX 0) s = .next u ∧ u.pc.toNat + operandCountAt defaultMap (u.mem.get u.pc.toNat) < 0x2000 ∧
      fetchInstr defaultMap u = .ok (.ldaaImm 0x80)) ∧
    (w.mem.wf = true ∧ (Instr.staaAbs 0x1FFF).form ∈ [some .staaAbs, some .staaX, some .staaY] ∧
      storeAddress (.staaAbs 0x1FFF) w = some 0x1FFF ∧ (0x1FFF : Word).toNat + operandCountAt defaultMap w.a < 0x2000 ∧
      exec (.staaAbs 0x1FFF) w = .next { w with mem := bytesAt [(0x100, [0x02, 0x05]), (0x1FFF, [0x20])], pc := 0x103 }) :=
  ⟨⟨rfl, by decide, rfl, rfl, by decide, rfl⟩, rfl, by decide, rfl, by decide, rfl⟩
/-- The idiom at the highest address that holds it whole. -/
theorem witness_UnconditionalJumpIdiom :
    let s := st 0 0 0 0 0x1FFA [(0x1FFA, [0x26, 0x34, 0x12, 0x27, 0x34, 0x12])]
    s.fault = none ∧ s.pc.toNat + 6 ≤ 0x2000 ∧ s.mem.get s.pc.toNat = 0x26 ∧ s.mem.get (s.pc.toNat + 1) = lowByte 0x1234 ∧
    s.mem.get (s.pc.toNat + 2) = highByte 0x1234 ∧ s.mem.get (s.pc.toNat + 3) = 0x27 ∧
    s.mem.get (s.pc.toNat + 4) = lowByte 0x1234 ∧ s.mem.get (s.pc.toNat + 5) = highByte 0x1234 := by decide
theorem witness_NoOperationIdiom :
    let s := st 0 0 0 0 0x1FFD [(0x1FFD, [0x26, 0x00, 0x20])]
    s.fault = none ∧ s.pc.toNat + 3 ≤ 0x2000 ∧ s.mem.get s.pc.toNat = 0x26 ∧ s.mem.get (s.pc.toNat + 1) = lowByte (s.pc + 3) ∧
    s.mem.get (s.pc.toNat + 2) = highByte (s.pc + 3) := by decide
/-- The lowest and the highest legal placement, with and without input lines. -/
theorem witness_CellsLieInRamAndAreDisjoint : mmioValid cells = true ∧ isControlCell cells 0x1000 = true ∧
    isControlCell cells 0x1002 = true ∧ isInputCell cells 0x1011 = true ∧ isInputCell cells 0x1012 = false ∧
    mmioValid ⟨0x1FFD, 0, 0⟩ = true ∧ mmioValid ⟨0x1FFE, 0, 0⟩ = false ∧ mmioValid ⟨0x1000, 2, 1⟩ = false := by decide
theorem witness_HostWritesOnlyTheCells : Memory.wf [] = true ∧ mmioValid cells = true ∧
    (hostWrites cells [] [⟨0x1010, 1⟩]).get 0x1010 ≠ Memory.get [] 0x1010 := by decide
theorem witness_StepWithHostKeepsInvariantAndRom : w.Inv ∧ stepWithHost params [] w = .next { w with a := 5, pc := 0x102 } :=
  ⟨witness_inv, rfl⟩
theorem witness_DebuggerRunRestartsAtZero : w.pc ≠ 0 := by decide
theorem witness_WrittenImageIsReadBack : Sparse.within 0 0x1000 [(0, 1), (0xFFF, 0)] = true ∧ Sparse.within 0 0x1000 [] = true := by decide
/-- P1 assembles (for the three statements about what assembly gives), and its line table has instruction lines. -/
theorem witness_AssembledImagesLoadToTheMemory : (match assembleWith defaultMap (p1.map String.toList) with
    | .ok out => decide (out.memory = p1Bytes) && decide (out.lines.map (·.1) = [0, 2, 4, 5, 8, 11])
    | .error _ => false) = true := by decide
theorem witness_AssemblyWritesEachAddressOnce : Sparse.within 0 0x2000 p1Bytes = true ∧ (p1Bytes.find 13).isSome = true ∧
    (p1Bytes.find 0x2000).isSome = false := by decide
theorem witness_LabelTextIsItsAddress : bindLabel ⟨1, [], []⟩ [] (some "loop".toList) 0x1FFF =
    .ok [⟨"loop".toList, "8191".toList, true⟩] := by rfl

end Sys2Proof.Machine.Tests
end

namespace Sys2Proof.Machine

/-! ### The four registers as one indexed family

`10_state.md` R25: no register aliases another. The laws below say it once for all four, so that a rule of the register
access matrix (R26) is proved for a register and not four times. -/

/-- The accumulators and the index registers (R21 to R24). -/
inductive Reg where
  | a | b | x | y

/-- What a register holds: a byte or a word. -/
abbrev Reg.Val : Reg → Type
  | .a | .b => Byte
  | .x | .y => Word

namespace State

/-- The value of a register. -/
def reg (s : State) : (r : Reg) → r.Val
  | .a => s.a
  | .b => s.b
  | .x => s.x
  | .y => s.y

/-- The state with another value in a register. -/
def setReg (s : State) : (r : Reg) → r.Val → State
  | .a => s.setA
  | .b => s.setB
  | .x => s.setX
  | .y => s.setY

@[simp] theorem reg_setReg_same (s : State) (r : Reg) (v : r.Val) : (s.setReg r v).reg r = v := by
  cases r <;> rfl

theorem reg_setReg_other (s : State) {q r : Reg} (v : r.Val) (h : q ≠ r) : (s.setReg r v).reg q = s.reg q := by
  cases q <;> cases r <;> simp [reg, setReg] at h ⊢

@[simp] theorem setReg_reg (s : State) (r : Reg) : s.setReg r (s.reg r) = s := by
  cases r <;> rfl

@[simp] theorem setReg_setReg_same (s : State) (r : Reg) (v w : r.Val) : (s.setReg r v).setReg r w = s.setReg r w := by
  cases r <;> rfl

theorem setReg_comm (s : State) {q r : Reg} (v : q.Val) (w : r.Val) (h : q ≠ r) :
    (s.setReg q v).setReg r w = (s.setReg r w).setReg q v := by
  cases q <;> cases r <;> simp [setReg, setA, setB, setX, setY] at h ⊢

@[simp] theorem setReg_pc (s : State) (r : Reg) (v : r.Val) : (s.setReg r v).pc = s.pc := by
  cases r <;> rfl

@[simp] theorem reg_setPc (s : State) (r : Reg) (w : Word) : (s.setPc w).reg r = s.reg r := by
  cases r <;> rfl

@[simp] theorem reg_setMem (s : State) (r : Reg) (m : Memory) : (s.setMem m).reg r = s.reg r := by
  cases r <;> rfl

@[simp] theorem reg_enterFault (s : State) (r : Reg) (e : FaultRecord) : (s.enterFault e).reg r = s.reg r := by
  cases r <;> rfl

@[simp] theorem reg_advance (s : State) (r : Reg) (n : Nat) : (s.advance n).reg r = s.reg r :=
  reg_setPc s r _

theorem setPc_setReg (s : State) (r : Reg) (v : r.Val) (w : Word) : (s.setReg r v).setPc w = (s.setPc w).setReg r v := by
  cases r <;> rfl

theorem setMem_setReg (s : State) (r : Reg) (v : r.Val) (m : Memory) :
    (s.setReg r v).setMem m = (s.setMem m).setReg r v := by
  cases r <;> rfl

theorem enterFault_setReg (s : State) (r : Reg) (v : r.Val) (e : FaultRecord) :
    (s.setReg r v).enterFault e = (s.enterFault e).setReg r v := by
  cases r <;> rfl

theorem advance_setReg (s : State) (r : Reg) (v : r.Val) (n : Nat) : (s.setReg r v).advance n = (s.advance n).setReg r v := by
  rw [advance, setReg_pc, setPc_setReg, ← advance]

end State

/-- R26 by register: the matrix marks the register `W` or `RW`. -/
def writesReg (i : Instr) : Reg → Bool
  | .a => writesA i
  | .b => writesB i
  | .x => writesX i
  | .y => writesY i

/-- R26 by register: the matrix marks the register `R` or `RW`. -/
def readsReg (i : Instr) : Reg → Bool
  | .a => readsA i
  | .b => readsB i
  | .x => readsX i
  | .y => readsY i

/-! ### The one effect of an instruction

Every instruction has one effect: it puts a value into one register, stores a byte, sets PC, raises, or is refused.
`effect` computes it from the state; `exec_eq_perform` ties it to `exec`. What an instruction reads is what `effect`
depends on, and what it writes is the effect's target. -/

/-- What an instruction does, its values already computed; an access that fails is the error it raises. -/
inductive Effect where
  /-- A register takes a value, and PC advances. -/
  | put (r : Reg) (v : Except FaultRecord r.Val)
  /-- The memory changes, and PC advances. -/
  | store (m : Except FaultRecord Memory)
  /-- PC takes a value. -/
  | jump (pc : Word)
  /-- An error with this record, and nothing else changes. -/
  | raise (e : FaultRecord)
  /-- No meaning, for this opcode byte. -/
  | refuse (op : Byte)

/-- The register an effect is on. -/
def Effect.target : Effect → Option Reg
  | .put r _ => some r
  | .store _ | .jump _ | .raise _ | .refuse _ => none

/-- The effect on a state of an instruction of `len` bytes, through the operations of `Machine/Ops.lean`. -/
def Effect.perform (len : Nat) (s : State) : Effect → StepResult
  | .put r v => putResult (State.setReg · r) v len s
  | .store m => putResult State.setMem m len s
  | .jump pc => .next (s.setPc pc)
  | .raise e => raiseError e s
  | .refuse op => .refused (.undocumentedOpcode op)

/-- The effect of each instruction. -/
def effect (i : Instr) (s : State) : Effect :=
  match i with
  | .tab => .put .b (.ok s.a)
  | .tba => .put .a (.ok s.b)
  | .ldaaImm v => .put .a (.ok v)
  | .ldabImm v => .put .b (.ok v)
  | .ldaaAbs addr => .put .a (memRead s.mem addr)
  | .ldabAbs addr => .put .b (memRead s.mem addr)
  | .staaAbs addr => .store (memWrite s.mem addr s.a)
  | .stabAbs addr => .store (memWrite s.mem addr s.b)
  | .ldxAbs addr => .put .x (memRead16 s.mem addr)
  | .ldyAbs addr => .put .y (memRead16 s.mem addr)
  | .ldxImm v => .put .x (.ok v)
  | .ldyImm v => .put .y (.ok v)
  | .ldaaX d => .put .a (memRead s.mem (indexedEa s.x d))
  | .ldaaY d => .put .a (memRead s.mem (indexedEa s.y d))
  | .ldabX d => .put .b (memRead s.mem (indexedEa s.x d))
  | .ldabY d => .put .b (memRead s.mem (indexedEa s.y d))
  | .staaX d => .store (memWrite s.mem (indexedEa s.x d) s.a)
  | .staaY d => .store (memWrite s.mem (indexedEa s.y d) s.a)
  | .stabX d => .store (memWrite s.mem (indexedEa s.x d) s.b)
  | .stabY d => .store (memWrite s.mem (indexedEa s.y d) s.b)
  | .sumBa => .put .a (.ok (aluSum s.a s.b))
  | .sumAb => .put .b (.ok (aluSum s.a s.b))
  | .andBa => .put .a (.ok (aluAnd s.a s.b))
  | .andAb => .put .b (.ok (aluAnd s.a s.b))
  | .orBa => .put .a (.ok (aluOr s.a s.b))
  | .orAb => .put .b (.ok (aluOr s.a s.b))
  | .coma => .put .a (.ok (aluCom s.a))
  | .comb => .put .b (.ok (aluCom s.b))
  | .shfaL => .put .a (.ok (aluShl s.a))
  | .shfaR => .put .a (.ok (aluShr s.a))
  | .shfbL => .put .b (.ok (aluShl s.b))
  | .shfbR => .put .b (.ok (aluShr s.b))
  | .inx => .put .x (.ok (s.x + 1))
  | .iny => .put .y (.ok (s.y + 1))
  | .beq t => .jump (if condEq s.a then pageTarget s.pc t else s.pc + 2)
  | .bne t => .jump (if condNe s.a then pageTarget s.pc t else s.pc + 2)
  | .bn t => .jump (if condN s.a then pageTarget s.pc t else s.pc + 2)
  | .bp t => .jump (if condP s.a then pageTarget s.pc t else s.pc + 2)
  | .beq16 t => .jump (if condEq s.a then t else s.pc + 3)
  | .bne16 t => .jump (if condNe s.a then t else s.pc + 3)
  | .bn16 t => .jump (if condN s.a then t else s.pc + 3)
  | .bp16 t => .jump (if condP s.a then t else s.pc + 3)
  | .undocumented op => .refuse op
  | .illegal op => .raise (.unknownInstruction op s.pc)

/-- Executing an instruction is performing its effect. -/
theorem exec_eq_perform (i : Instr) (s : State) : exec i s = (effect i s).perform i.length s := by
  cases i with
  | beq t | bne t | bn t | bp t => exact branch8_eq _ t s
  | beq16 t | bne16 t | bn16 t | bp16 t => exact branch16_eq _ t s
  | _ => rfl

/-- Everything an effect that answers a next state can do. -/
theorem Effect.perform_next {e : Effect} {len : Nat} {s t : State} (h : e.perform len s = .next t) :
    (∃ r, t = s.enterFault r) ∨
    (∃ r v, e = .put r (.ok v) ∧ t = (s.setReg r v).advance len) ∨
    (∃ m, e = .store (.ok m) ∧ t = (s.setMem m).advance len) ∨
    ∃ pc, e = .jump pc ∧ t = s.setPc pc := by
  cases e with
  | put r v =>
    cases v with
    | error e => cases h; exact .inl ⟨e, rfl⟩
    | ok v => cases h; exact .inr (.inl ⟨r, v, rfl, rfl⟩)
  | store m =>
    cases m with
    | error e => cases h; exact .inl ⟨e, rfl⟩
    | ok m => cases h; exact .inr (.inr (.inl ⟨m, rfl, rfl⟩))
  | jump pc => cases h; exact .inr (.inr (.inr ⟨pc, rfl, rfl⟩))
  | raise e => cases h; exact .inl ⟨e, rfl⟩
  | refuse op => cases h

/-- An effect leaves each register but its target unchanged. -/
theorem Effect.perform_frame {e : Effect} {len : Nat} {s t : State} {q : Reg} (hq : e.target ≠ some q)
    (h : e.perform len s = .next t) : t.reg q = s.reg q := by
  rcases perform_next h with ⟨r, rfl⟩ | ⟨r, v, rfl, rfl⟩ | ⟨m, rfl, rfl⟩ | ⟨pc, rfl, rfl⟩
  · exact s.reg_enterFault q r
  · have hqr : q ≠ r := fun hqr => hq (by rw [hqr]; rfl)
    rw [State.reg_advance, State.reg_setReg_other s v hqr]
  · rw [State.reg_advance, State.reg_setMem]
  · exact s.reg_setPc q pc

/-- The same effect on a state with another value in a register: the register is overwritten, and nothing differs
afterwards, or it is left alone, and it alone differs. -/
theorem Effect.perform_setReg {e : Effect} {len : Nat} {s t : State} {q : Reg} (v : q.Val)
    (h : e.perform len s = .next t) :
    e.perform len (s.setReg q v) = .next t ∨
    (e.perform len (s.setReg q v) = .next (t.setReg q v) ∧ t.reg q = s.reg q) := by
  have hraise : ∀ r, raiseError r (s.setReg q v) = .next ((s.enterFault r).setReg q v) := fun r =>
    by rw [raiseError_eq, State.enterFault_setReg]
  cases e with
  | put r w =>
    cases w with
    | error e => cases h; exact .inr ⟨hraise e, s.reg_enterFault q e⟩
    | ok w =>
      cases h
      by_cases hqr : q = r
      · subst hqr
        exact .inl (by rw [perform, putResult, putAndAdvance, State.setReg_setReg_same])
      · refine .inr ⟨?_, by rw [State.reg_advance, State.reg_setReg_other s w hqr]⟩
        rw [perform, putResult, putAndAdvance, State.setReg_comm s v w hqr, State.advance_setReg]
  | store m =>
    cases m with
    | error e => cases h; exact .inr ⟨hraise e, s.reg_enterFault q e⟩
    | ok m =>
      cases h
      refine .inr ⟨?_, by rw [State.reg_advance, State.reg_setMem]⟩
      rw [perform, putResult, putAndAdvance, State.setMem_setReg, State.advance_setReg]
  | jump pc => cases h; exact .inr ⟨by rw [perform, State.setPc_setReg], s.reg_setPc q pc⟩
  | raise e => cases h; exact .inr ⟨hraise e, s.reg_enterFault q e⟩
  | refuse op => cases h

/-! ### The effect and the register access matrix -/

/-- R26, the columns written: the target of an instruction's effect is a register the matrix marks. -/
theorem writesReg_of_target {i : Instr} {s : State} {q : Reg} (h : (effect i s).target = some q) :
    writesReg i q = true := by
  cases i with
  | staaAbs | stabAbs | staaX | staaY | stabX | stabY | beq | bne | bn | bp | beq16 | bne16 | bn16 | bp16
  | undocumented | illegal => cases h
  | _ => cases h; rfl

theorem effect_setA {i : Instr} (h : readsA i = false) (s : State) (v : Byte) : effect i (s.setA v) = effect i s := by
  cases i with
  | tab | staaAbs | staaX | staaY | sumBa | sumAb | andBa | andAb | orBa | orAb | coma | shfaL | shfaR | beq | bne | bn
  | bp | beq16 | bne16 | bn16 | bp16 => cases h
  | _ => rfl

theorem effect_setB {i : Instr} (h : readsB i = false) (s : State) (v : Byte) : effect i (s.setB v) = effect i s := by
  cases i with
  | tba | stabAbs | stabX | stabY | sumBa | sumAb | andBa | andAb | orBa | orAb | comb | shfbL | shfbR => cases h
  | _ => rfl

theorem effect_setX {i : Instr} (h : readsX i = false) (s : State) (v : Word) : effect i (s.setX v) = effect i s := by
  cases i with
  | ldaaX | ldabX | staaX | stabX | inx => cases h
  | _ => rfl

theorem effect_setY {i : Instr} (h : readsY i = false) (s : State) (v : Word) : effect i (s.setY v) = effect i s := by
  cases i with
  | ldaaY | ldabY | staaY | stabY | iny => cases h
  | _ => rfl

/-- R26, the columns read: the effect does not depend on a register the matrix does not mark. -/
theorem effect_setReg {i : Instr} {q : Reg} (h : readsReg i q = false) (s : State) (v : q.Val) :
    effect i (s.setReg q v) = effect i s := by
  cases q with
  | a => exact effect_setA h s v
  | b => exact effect_setB h s v
  | x => exact effect_setX h s v
  | y => exact effect_setY h s v

/-- Only the branches set PC otherwise than by advancing it (R28). -/
theorem effect_jump {i : Instr} {s : State} {pc : Word} (h : effect i s = .jump pc) : isBranch i = true := by
  cases i with
  | beq | bne | bn | bp | beq16 | bne16 | bn16 | bp16 => rfl
  | _ => cases h

/-- The frame of an instruction on the registers. -/
theorem exec_keeps_reg {i : Instr} {s t : State} {q : Reg} (hq : writesReg i q = false) (h : exec i s = .next t) :
    t.reg q = s.reg q := by
  rw [exec_eq_perform] at h
  refine Effect.perform_frame (fun ht => ?_) h
  rw [writesReg_of_target ht] at hq
  cases hq

/-- Noninterference of a register an instruction does not read. -/
theorem exec_ignores_reg {i : Instr} {s t : State} {q : Reg} (hq : readsReg i q = false) (h : exec i s = .next t)
    (v : q.Val) : ∃ u, exec i (s.setReg q v) = .next u ∧ u.setReg q (t.reg q) = t ∧
      (u.reg q = t.reg q ∨ (u.reg q = v ∧ t.reg q = s.reg q)) := by
  rw [exec_eq_perform] at h ⊢
  rw [effect_setReg hq]
  rcases Effect.perform_setReg v h with hu | ⟨hu, ht⟩
  · exact ⟨t, hu, t.setReg_reg q, .inl rfl⟩
  · exact ⟨t.setReg q v, hu, by simp, .inr ⟨t.reg_setReg_same q v, ht⟩⟩

/-- A non-branch that answers a next state raises, or advances PC by its length. -/
theorem exec_nonBranch_pc {i : Instr} {s t : State} (hb : isBranch i = false) (h : exec i s = .next t) :
    (∃ r, t = s.enterFault r) ∨ t.pc = s.pc + BitVec.ofNat 16 i.length := by
  rw [exec_eq_perform] at h
  rcases Effect.perform_next h with hr | ⟨r, v, -, rfl⟩ | ⟨m, -, rfl⟩ | ⟨pc, he, -⟩
  · exact .inl hr
  · exact .inr (by rw [State.advance_pc, State.setReg_pc])
  · exact .inr (by rw [State.advance_pc, State.setMem_pc])
  · rw [effect_jump he] at hb
    cases hb

/-! ### Steps that fail in the fetch, and the branch conditions -/

theorem stepWith_of_fetch_error {map : OpcodeMap} {s : State} {r : FaultRecord} (hf : s.fault = none)
    (he : fetchInstr map s = .error r) : stepWith map s = .next (s.enterFault r) := by
  rw [stepWith_none hf, he]

theorem fetchInstr_opcode_unbacked (map : OpcodeMap) {s : State} (h : 0x2000 ≤ s.pc.toNat) :
    fetchInstr map s = .error (.outOfBounds s.pc) := by
  rcases fetchFrom_cases map s.mem s.mem s.mem s.pc with ⟨_, he⟩ | ⟨hp, _, _⟩ | ⟨hp, _⟩
  · exact he
  · omega
  · omega

/-- With the opcode byte backed, the first operand address that is not backed is 0x2000. -/
theorem fetchInstr_operand_unbacked {map : OpcodeMap} {s : State} (hp : s.pc.toNat < 0x2000)
    (h : 0x2000 ≤ s.pc.toNat + operandCountAt map (s.mem.get s.pc.toNat)) :
    fetchInstr map s = .error (.outOfBounds 0x2000) := by
  rcases fetchFrom_cases map s.mem s.mem s.mem s.pc with ⟨hp', _⟩ | ⟨_, _, he⟩ | ⟨hlt, _⟩
  · omega
  · exact he
  · omega

/-- Bit 7 of a byte is set from 0x80 on. -/
theorem bit7_eq (v : Byte) : bit7 v = decide (0x80 ≤ v.toNat) :=
  (BitVec.msb_eq_getLsbD_last v).symm.trans (BitVec.msb_eq_decide v)

/-! ### The obligations -/

/-- Settles O33: the effect's target is the one register written. -/
theorem registersNotWrittenAreUnchanged : Obligations.RegistersNotWrittenAreUnchanged := by
  intro i s t h
  exact ⟨fun hw => exec_keeps_reg (q := .a) hw h, fun hw => exec_keeps_reg (q := .b) hw h,
    fun hw => exec_keeps_reg (q := .x) hw h, fun hw => exec_keeps_reg (q := .y) hw h⟩

/-- Settles O34: the effect is computed without the register, and performing it overwrites the register or leaves it. -/
theorem registersNotReadDoNotMatter : Obligations.RegistersNotReadDoNotMatter := by
  intro i s t h
  exact ⟨fun hr => exec_ignores_reg (q := .a) hr h, fun hr => exec_ignores_reg (q := .b) hr h,
    fun hr => exec_ignores_reg (q := .x) hr h, fun hr => exec_ignores_reg (q := .y) hr h⟩

/-- Settles O38: an instruction that ends without an error has not raised one. -/
theorem nonBranchAdvancesByItsLength : Obligations.NonBranchAdvancesByItsLength := by
  intro i s t hb _ h ht
  rcases exec_nonBranch_pc hb h with ⟨r, rfl⟩ | hpc
  · cases ht
  · rw [hpc, BitVec.toNat_add, BitVec.toNat_ofNat, Nat.add_mod_mod]

/-- Settles O40, by the ways a step can end. -/
theorem faultStateIsTerminal : Obligations.FaultStateIsTerminal := by
  refine ⟨fun map s r => stepWith_faulted, fun map s f h => ?_, fun map s t h => ?_⟩
  · rcases stepWith_cases map s with ⟨r, hr, he⟩ | ⟨_, ⟨_, _, he⟩ | ⟨_, he⟩ | ⟨_, _, _, _, he, _⟩ | ⟨_, _, _, _, _, _, he⟩⟩
    · rw [he] at h
      cases h
      exact ⟨r, hr, rfl⟩
    all_goals rw [he] at h; cases h
  · rcases stepWith_cases map s with ⟨r, _, he⟩ | ⟨hf, _⟩
    · rw [he] at h
      cases h
    · exact hf

/-- Settles O5: the opcode fetch fails at PC, and the step raises its error. -/
theorem opcodeFetchOutOfBoundsRaises : Obligations.OpcodeFetchOutOfBoundsRaises := by
  intro map s hf hp
  exact stepWith_of_fetch_error hf (fetchInstr_opcode_unbacked map hp)

/-- Settles O6: an operand fetch fails at 0x2000, and the step raises its error. -/
theorem operandFetchOutOfBoundsRaises : Obligations.OperandFetchOutOfBoundsRaises := by
  intro map s hf hp h
  exact stepWith_of_fetch_error hf (fetchInstr_operand_unbacked hp h)

/-- Settles O30: the conditions in terms of A = 0 and of bit 7. -/
theorem conditionsPartitionA : Obligations.ConditionsPartitionA := by
  intro a
  have hz : a = 0#8 ↔ a.toNat = 0 := BitVec.toNat_inj.symm
  refine ⟨?_, ?_, ?_, ?_, rfl, ?_⟩
  · simp [condEq, hz]
  · simp [condNe, hz]
  · simp [condN, bit7_eq]
  · simp [condP, bit7_eq]
  · simp [condP, condN]

end Sys2Proof.Machine

namespace Sys2Proof.Machine

/-! ### What an instruction and a step do to memory

The six stores are one operation (`exec_of_storeAddress`), and every other instruction leaves memory alone (`exec_mem`,
`stepWith_mem`): `20_memory.md` R57, R61. -/

/-- The instructions with a store address are the `staa` and the `stab`. -/
theorem form_of_storeAddress {i : Instr} {s : State} {ea : Word} (h : storeAddress i s = some ea) :
    i.form ∈ [some .staaAbs, some .staaX, some .staaY] ∨ i.form ∈ [some .stabAbs, some .stabX, some .stabY] := by
  cases i with
  | staaAbs | staaX | staaY => exact .inl (by simp [Instr.form])
  | stabAbs | stabX | stabY => exact .inr (by simp [Instr.form])
  | _ => cases h

/-- A `staa` stores A (R57). -/
theorem storedByte_of_staa {i : Instr} (h : i.form ∈ [some .staaAbs, some .staaX, some .staaY]) (s : State) :
    storedByte i s = s.a := by
  cases i with
  | stabAbs | stabX | stabY => simp [Instr.form] at h
  | _ => rfl

/-- A `stab` stores B (R57). -/
theorem storedByte_of_stab {i : Instr} (h : i.form ∈ [some .stabAbs, some .stabX, some .stabY]) (s : State) :
    storedByte i s = s.b := by
  cases i with
  | stabAbs | stabX | stabY => rfl
  | _ => simp [Instr.form] at h

/-- An instruction with a store address is the store of its byte there. -/
theorem exec_of_storeAddress {i : Instr} {s : State} {ea : Word} (h : storeAddress i s = some ea) :
    exec i s = storeByte (storedByte i s) ea i.length s := by
  cases i with
  | staaAbs | stabAbs | staaX | staaY | stabX | stabY => cases h; rfl
  | _ => cases h

/-- After an instruction memory is as it was, or with the stored byte in RAM at the store address. -/
theorem exec_mem {i : Instr} {s t : State} (h : exec i s = .next t) :
    t.mem = s.mem ∨ ∃ ea, storeAddress i s = some ea ∧ 0x1000 ≤ ea.toNat ∧ ea.toNat < 0x2000 ∧
      t.mem = s.mem.set ea.toNat (storedByte i s) := by
  rcases exec_cases i s with ⟨op, _, he⟩ | ⟨r, he⟩ | ⟨u, he, _, hm⟩ | ⟨ea, ha, h1, h2, he⟩ <;> rw [he] at h <;> cases h
  · exact .inl rfl
  · exact .inl hm
  · exact .inr ⟨ea, ha, h1, h2, rfl⟩

/-- After a step memory is as it was, or as the instruction fetched left it. -/
theorem stepWith_mem {map : OpcodeMap} {s t : State} (h : stepWith map s = .next t) :
    t.mem = s.mem ∨ ∃ i ea, fetchInstr map s = .ok i ∧ storeAddress i s = some ea ∧ 0x1000 ≤ ea.toNat ∧
      ea.toNat < 0x2000 ∧ t.mem = s.mem.set ea.toNat (storedByte i s) := by
  rcases stepWith_cases map s with ⟨r, _, he⟩ | ⟨_, ⟨op, _, he⟩ | ⟨r, he⟩ | ⟨i, u, _, _, he, _, hm⟩ |
    ⟨i, ea, hi, ha, h1, h2, he⟩⟩ <;> rw [he] at h <;> cases h
  · exact .inl rfl
  · exact .inl hm
  · exact .inr ⟨i, ea, hi, ha, h1, h2, rfl⟩

/-! ### Changes of memory that are legal: canonical form kept, ROM untouched -/

/-- What every agent's writes respect: a canonical memory stays canonical, and no byte of ROM differs (R50, R52). -/
structure Memory.ChangesOnlyRam (m m' : Memory) : Prop where
  wf : m.wf = true → m'.wf = true
  rom : ∀ a, a < 0x1000 → m'.get a = m.get a

namespace Memory.ChangesOnlyRam

theorem refl (m : Memory) : ChangesOnlyRam m m := ⟨id, fun _ _ => rfl⟩

theorem trans {m1 m2 m3 : Memory} (h : ChangesOnlyRam m1 m2) (h' : ChangesOnlyRam m2 m3) : ChangesOnlyRam m1 m3 :=
  ⟨h'.wf ∘ h.wf, fun a ha => (h'.rom a ha).trans (h.rom a ha)⟩

/-- A write to RAM. -/
theorem of_set (m : Memory) {a : Nat} (v : Byte) (h1 : 0x1000 ≤ a) (h2 : a < 0x2000) : ChangesOnlyRam m (m.set a v) :=
  ⟨fun h => Memory.wf_set v h h2, fun b hb => Memory.get_set_other m v (by omega)⟩

/-- The input bridge's writes (R67). -/
theorem of_hostWrites (c : Mmio) (m : Memory) (ws : List HostWrite) : ChangesOnlyRam m (hostWrites c m ws) :=
  ⟨wf_hostWrites ws, fun a ha => get_hostWrites_other (fun h => by omega) ws m⟩

/-- An instruction. -/
theorem of_exec {i : Instr} {s t : State} (h : exec i s = .next t) : ChangesOnlyRam s.mem t.mem := by
  rcases exec_mem h with hm | ⟨ea, _, h1, h2, hm⟩ <;> rw [hm]
  · exact refl s.mem
  · exact of_set s.mem _ h1 h2

/-- A step. -/
theorem of_stepWith {map : OpcodeMap} {s t : State} (h : stepWith map s = .next t) : ChangesOnlyRam s.mem t.mem := by
  rcases stepWith_mem h with hm | ⟨i, ea, _, _, h1, h2, hm⟩ <;> rw [hm]
  · exact refl s.mem
  · exact of_set s.mem _ h1 h2

end Memory.ChangesOnlyRam

/-! ### Reads and fetches -/

/-- A read elsewhere does not see a write. -/
theorem memRead_set_other (m : Memory) {a b : Word} (v : Byte) (h : b ≠ a) : memRead (m.set a.toNat v) b = memRead m b := by
  rw [memRead, memRead, Memory.get_set_other m v (fun e => h (BitVec.eq_of_toNat_eq e))]

/-- A fetch whose bytes are backed gives the instruction of the bytes at PC (R95 to R97). -/
theorem fetchInstr_backed {map : OpcodeMap} {s : State}
    (h : s.pc.toNat + operandCountAt map (s.mem.get s.pc.toNat) < 0x2000) :
    fetchInstr map s =
      .ok (instrAt map (s.mem.get s.pc.toNat) (s.mem.get (s.pc.toNat + 1)) (s.mem.get (s.pc.toNat + 2))) := by
  rcases fetchFrom_cases map s.mem s.mem s.mem s.pc with ⟨hp, _⟩ | ⟨_, hp, _⟩ | ⟨_, b1, b2, he, h1, h2, _⟩
  · omega
  · omega
  · rw [fetchInstr, he, instrAt_congr h1 h2]

/-! ### Host writes among a step's accesses -/

/-- No cell is both a control cell and an input-line cell of a legal placement (R261). -/
theorem not_control_of_input {c : Mmio} {a : Nat} (hc : mmioValid c = true) (hi : isInputCell c a = true) :
    isControlCell c a = false := by
  simp only [mmioValid, isInputCell, isControlCell, Bool.and_eq_true, Bool.or_eq_true, decide_eq_true_eq,
    Bool.and_eq_false_iff, decide_eq_false_iff_not] at *
  omega

/-- A legal host write to an input-line cell is of 0 or 1 (R262). -/
theorem hostWriteLegal_input {c : Mmio} {w : HostWrite} (hc : mmioValid c = true) (hi : isInputCell c w.addr.toNat = true)
    (h : hostWriteLegal c w = true) : w.value = 0 ∨ w.value = 1 := by
  simp only [hostWriteLegal, not_control_of_input hc hi, hi, Bool.false_or, Bool.true_and, Bool.and_eq_true,
    Bool.or_eq_true, beq_iff_eq] at h
  exact h.2

/-- A host write leaves an input-line cell as it was, or at 0 or 1. -/
theorem get_hostWrite_input {c : Mmio} {m : Memory} {a : Nat} (hc : mmioValid c = true) (hi : isInputCell c a = true)
    (hm : m.wf = true) (w : HostWrite) :
    (hostWrite c m w).get a = m.get a ∨ (hostWrite c m w).get a = 0 ∨ (hostWrite c m w).get a = 1 := by
  unfold hostWrite
  split
  · rename_i hl
    rw [Memory.get_set _ _ _ hm]
    split
    · rename_i ha
      subst ha
      exact .inr (hostWriteLegal_input hc hi hl)
    · exact .inl rfl
  · exact .inl rfl

theorem hostWrites_cons (c : Mmio) (m : Memory) (w : HostWrite) (ws : List HostWrite) :
    hostWrites c m (w :: ws) = hostWrites c (hostWrite c m w) ws := rfl

/-- Host writes leave an input-line cell as it was, or at 0 or 1. -/
theorem get_hostWrites_input {c : Mmio} {a : Nat} (hc : mmioValid c = true) (hi : isInputCell c a = true)
    (ws : List HostWrite) : ∀ {m : Memory}, m.wf = true →
      (hostWrites c m ws).get a = m.get a ∨ (hostWrites c m ws).get a = 0 ∨ (hostWrites c m ws).get a = 1 := by
  induction ws with
  | nil => exact fun _ => .inl rfl
  | cons w rest ih =>
    intro m hm
    rw [hostWrites_cons]
    rcases ih (wf_hostWrite w hm) with he | he
    · rw [he]
      exact get_hostWrite_input hc hi hm w
    · exact .inr he

/-- The memory that byte access number `k` of a step sees, with the host writes before it (R65 (b)). -/
def memorySeen (c : Mmio) (ws : List (List HostWrite)) (s : State) (k : Nat) : Memory :=
  hostWrites c s.mem (ws.take (k + 1)).flatten

section StepBetweenAccesses

variable {map : OpcodeMap} {c : Mmio} {ws : List (List HostWrite)} {s : State}

theorem stepBetweenAccesses_faulted {r : FaultRecord} (h : s.fault = some r) :
    stepBetweenAccesses map c ws s = .fault (.stopped r) := by
  rw [stepBetweenAccesses, h]

theorem stepBetweenAccesses_of_fetch_error {r : FaultRecord} (hf : s.fault = none)
    (he : fetchFrom map (memorySeen c ws s 0) (memorySeen c ws s 1) (memorySeen c ws s 2) s.pc = .error r) :
    stepBetweenAccesses map c ws s = .next ((s.setMem (hostWrites c s.mem ws.flatten)).enterFault r) := by
  rw [stepBetweenAccesses, hf]
  simp only [memorySeen] at he
  simp only [he, raiseError_eq]

theorem stepBetweenAccesses_of_fetch_ok {i : Instr} (hf : s.fault = none)
    (he : fetchFrom map (memorySeen c ws s 0) (memorySeen c ws s 1) (memorySeen c ws s 2) s.pc = .ok i) :
    stepBetweenAccesses map c ws s =
      onNext (fun t => t.setMem (hostWrites c t.mem (ws.drop (i.length + 1)).flatten))
        (execBetween (memorySeen c ws s i.length) (memorySeen c ws s (i.length + 1)) i s) := by
  rw [stepBetweenAccesses, hf]
  simp only [memorySeen] at he
  simp only [he, memorySeen]

end StepBetweenAccesses

/-- With all writes before the opcode fetch every access sees all of them. -/
theorem memorySeen_singleton (c : Mmio) (ws : List HostWrite) (s : State) (k : Nat) :
    memorySeen c [ws] s k = hostWrites c s.mem ws := by
  simp [memorySeen]

/-- So the fetch is that of a state whose memory has the writes already. -/
theorem fetch_memorySeen_singleton (map : OpcodeMap) (c : Mmio) (ws : List HostWrite) (s : State) :
    fetchFrom map (memorySeen c [ws] s 0) (memorySeen c [ws] s 1) (memorySeen c [ws] s 2) s.pc =
      fetchInstr map (s.setMem (hostWrites c s.mem ws)) := by
  rw [memorySeen_singleton, memorySeen_singleton, memorySeen_singleton]
  rfl

theorem onNext_id (r : StepResult) : onNext id r = r := by
  cases r <;> rfl

/-- With no write left after the last access nothing is added to the step. -/
theorem hostWrites_after_singleton (c : Mmio) (ws : List HostWrite) (n : Nat) :
    (fun t : State => t.setMem (hostWrites c t.mem (([ws].drop (n + 1)).flatten))) = id := by
  funext t
  simp only [List.drop_succ_cons, List.drop_nil, List.flatten_nil]
  rfl

/-- An instruction among host writes changes only RAM of the memory its first data access sees: the second access, of
`ldx addr` and `ldy addr` alone, is a read. -/
theorem execBetween_changesOnlyRam {m1 m2 : Memory} {i : Instr} {s t : State} (h : execBetween m1 m2 i s = .next t) :
    m1.ChangesOnlyRam t.mem := by
  have hword : ∀ (put : State → Word → State) (ea : Word), (∀ u v, (put u v).mem = u.mem) →
      loadWordFrom m1 m2 put ea 3 (s.setMem m1) = .next t → m1.ChangesOnlyRam t.mem := by
    intro put ea hput h
    rcases loadWordFrom_cases m1 m2 put ea 3 (s.setMem m1) with ⟨_, he⟩ | ⟨_, he⟩ | ⟨_, he⟩ <;> rw [he] at h <;> cases h
    · exact hput (s.setMem m1) _ ▸ .refl m1
    · exact .refl m1
    · exact .refl m1
  by_cases hx : ∃ addr, i = .ldxAbs addr
  · obtain ⟨addr, rfl⟩ := hx
    exact hword State.setX addr (fun _ _ => rfl) h
  by_cases hy : ∃ addr, i = .ldyAbs addr
  · obtain ⟨addr, rfl⟩ := hy
    exact hword State.setY addr (fun _ _ => rfl) h
  rw [execBetween_other (not_exists.mp hx) (not_exists.mp hy)] at h
  exact .of_exec h

/-- A step among host writes changes only RAM. -/
theorem stepBetweenAccesses_changesOnlyRam {map : OpcodeMap} {c : Mmio} {ws : List (List HostWrite)} {s t : State}
    (h : stepBetweenAccesses map c ws s = .next t) : s.mem.ChangesOnlyRam t.mem := by
  cases hf : s.fault with
  | some r => rw [stepBetweenAccesses_faulted hf] at h; cases h
  | none =>
    cases he : fetchFrom map (memorySeen c ws s 0) (memorySeen c ws s 1) (memorySeen c ws s 2) s.pc with
    | error r =>
      rw [stepBetweenAccesses_of_fetch_error hf he] at h
      cases h
      exact .of_hostWrites c s.mem _
    | ok i =>
      rw [stepBetweenAccesses_of_fetch_ok hf he] at h
      obtain ⟨u, hu, rfl⟩ := onNext_next h
      exact ((Memory.ChangesOnlyRam.of_hostWrites c s.mem _).trans (execBetween_changesOnlyRam hu)).trans
        (.of_hostWrites c u.mem _)

/-- Under either discipline a step with host writes changes only RAM. -/
theorem stepWithHost_changesOnlyRam {p : Params} {ws : List (List HostWrite)} {s t : State}
    (h : stepWithHost p ws s = .next t) : s.mem.ChangesOnlyRam t.mem := by
  unfold stepWithHost at h
  cases hp : p.interleave with
  | betweenSteps =>
    simp only [hp] at h
    exact (Memory.ChangesOnlyRam.of_hostWrites p.mmio s.mem ws.flatten).trans (.of_stepWith h)
  | betweenAccesses =>
    simp only [hp] at h
    exact stepBetweenAccesses_changesOnlyRam h

/-! ### The obligations on memory -/

/-- Settles O44: a step changes only RAM, one backed byte at a time. -/
theorem stepKeepsMemoryCanonical : Obligations.StepKeepsMemoryCanonical :=
  fun _ _ _ hs h => (Memory.ChangesOnlyRam.of_stepWith h).wf hs

/-- Settles O35: a byte differs only where the instruction has a store address. -/
theorem nonStoringInstructionsKeepMemory : Obligations.NonStoringInstructionsKeepMemory := by
  intro i s t hn h a
  rcases exec_mem h with hm | ⟨ea, ha, _⟩
  · rw [hm]
  · rw [hn] at ha
    cases ha

/-- Settles O36, by the three ways a store can end. -/
theorem storesChangeOnlyTheirByte : Obligations.StoresChangeOnlyTheirByte := by
  intro i s t ea ha h
  rw [exec_of_storeAddress ha] at h
  rcases storeByte_cases (storedByte i s) ea i.length s with ⟨_, he⟩ | ⟨h1, h2, he⟩ | ⟨_, he⟩ <;> rw [he] at h <;> cases h
  · exact ⟨fun _ _ => rfl, fun _ _ => rfl, rfl, rfl, rfl, rfl⟩
  · exact ⟨fun a hne => Memory.get_set_other s.mem _ hne, fun hout => by omega, rfl, rfl, rfl, rfl⟩
  · exact ⟨fun _ _ => rfl, fun _ _ => rfl, rfl, rfl, rfl, rfl⟩

/-- Settles O45: a step changes only RAM, a store below RAM raises, and every byte of ROM is backed. -/
theorem romIsReadableAndNeverWritten : Obligations.RomIsReadableAndNeverWritten := by
  refine ⟨fun map s t h => (Memory.ChangesOnlyRam.of_stepWith h).rom, fun i s ea ha hrom => ?_,
    fun m addr h => memRead_backed (by omega), fun map s h => ?_⟩
  · rw [exec_of_storeAddress ha]
    rcases storeByte_cases (storedByte i s) ea i.length s with ⟨_, he⟩ | ⟨h1, _⟩ | ⟨h2, _⟩
    · exact he
    · omega
    · omega
  · have hn := operandCountAt_le map (s.mem.get s.pc.toNat)
    exact ⟨_, fetchInstr_backed (by omega)⟩

/-- Settles O46: a byte that differs is the one the fetched store wrote. -/
theorem onlyAStoreChangesMemory : Obligations.OnlyAStoreChangesMemory := by
  intro map s t a hs h hne
  rcases stepWith_mem h with hm | ⟨i, ea, hi, ha, h1, h2, hm⟩
  · rw [hm] at hne
    exact absurd rfl hne
  · have hget : ∀ b, t.mem.get b = if b = ea.toNat then storedByte i s else s.mem.get b := fun b => by
      rw [hm, Memory.get_set _ _ _ hs]
    have hea : a = ea.toNat := by
      by_contra hc
      exact hne ((hget a).trans (if_neg hc))
    subst hea
    refine ⟨h1, h2, fun b hb => (hget b).trans (if_neg hb), i, ea, hi, ha, rfl, ?_⟩
    rw [hget, if_pos rfl]
    exact (form_of_storeAddress ha).imp (fun hf => ⟨hf, storedByte_of_staa hf s⟩) fun hf => ⟨hf, storedByte_of_stab hf s⟩

/-- Settles O47: the store completes, memory reads as its bytes with the stored one in place, and so does the fetch. -/
theorem fetchSeesEveryStoredByte : Obligations.FetchSeesEveryStoredByte := by
  intro map i s t ea pc v hs hv ha h1 h2 h byte hpc
  have hstored : storedByte i s = v := by
    rcases hv with ⟨hf, rfl⟩ | ⟨hf, rfl⟩
    · exact storedByte_of_staa hf s
    · exact storedByte_of_stab hf s
  rw [exec_of_storeAddress ha, hstored] at h
  have hget : ∀ a, t.mem.get a = byte a := by
    rcases storeByte_cases v ea i.length s with ⟨h3, _⟩ | ⟨_, _, he⟩ | ⟨h3, _⟩
    · omega
    · rw [he] at h
      cases h
      exact fun a => Memory.get_set ea.toNat a v hs
    · omega
  simp only [← hget] at hpc ⊢
  exact fetchInstr_backed hpc

/-- Settles O51: only cells are written, and input-line cells only with 0 or 1. -/
theorem hostWritesOnlyTheCells : Obligations.HostWritesOnlyTheCells := by
  intro c m ws a hm hc hne
  refine ⟨?_, fun hi => ?_⟩
  · by_contra hcell
    exact hne (get_hostWrites_other (fun ⟨_, _, h⟩ => hcell h) ws m)
  · rcases get_hostWrites_input hc hi ws hm with he | he
    · exact absurd he hne
    · exact he

/-- Settles O52: every access sees all the writes, and none is left after the last one. -/
theorem disciplinesAgreeOnWritesBeforeTheStep : Obligations.DisciplinesAgreeOnWritesBeforeTheStep := by
  intro map c ws s
  have hws : [ws].flatten = ws := List.flatten_singleton
  rw [stepBetweenSteps, hws]
  cases hf : s.fault with
  | some r => rw [stepBetweenAccesses_faulted hf, stepWith_faulted ((s.setMem_fault _).trans hf)]
  | none =>
    rw [stepWith_none ((s.setMem_fault _).trans hf)]
    cases he : fetchInstr map (s.setMem (hostWrites c s.mem ws)) with
    | error r =>
      rw [stepBetweenAccesses_of_fetch_error hf ((fetch_memorySeen_singleton map c ws s).trans he), hws]
    | ok i =>
      rw [stepBetweenAccesses_of_fetch_ok hf ((fetch_memorySeen_singleton map c ws s).trans he),
        hostWrites_after_singleton, onNext_id, memorySeen_singleton, memorySeen_singleton, execBetween_same]

/-- Settles O53: the host's writes and the core's change only RAM. -/
theorem stepWithHostKeepsInvariantAndRom : Obligations.StepWithHostKeepsInvariantAndRom := by
  intro p ws s t hs h
  have hram := stepWithHost_changesOnlyRam h
  exact ⟨hram.wf hs, hram.rom⟩

/-- Settles O43: a write that completes is to RAM. -/
theorem readAfterWrite : Obligations.ReadAfterWrite := by
  intro m m' addr v hm h
  rcases memWrite_cases m addr v with ⟨_, he⟩ | ⟨h1, h2, he⟩ | ⟨_, he⟩ <;> rw [he] at h <;> cases h
  refine ⟨?_, fun b hb => memRead_set_other m v hb, h1, h2⟩
  rw [memRead_backed h2, Memory.get_set_self _ _ hm]

end Sys2Proof.Machine

namespace Sys2Proof

/-! ### Decoding against encoding

The opcode byte selects form and length, and the operand bytes are taken as they stand (`30_encoding.md` R90 to R101); the
two directions below are put together from what an opcode byte and its operand bytes make. -/

/-- Under a legal map a well-formed instruction's opcode byte is assigned to its own form (R92 to R94). -/
theorem OpcodeMap.formAt_opcode {m : OpcodeMap} {i : Instr} (hm : m.valid = true) (hi : i.wfUnder m = true) :
    m.formAt (i.opcode m) = i.form := by
  cases hf : i.form with
  | some f => rw [Instr.opcode_of_form hf, OpcodeMap.formAt_codeOf hm]
  | none =>
    rcases Instr.form_none hf with ⟨op, rfl⟩ | ⟨op, rfl⟩
    · simp only [Instr.wfUnder, Bool.and_eq_true, Option.isNone_iff_eq_none] at hi
      exact hi.2
    · exact OpcodeMap.formAt_above (of_decide_eq_true hi)

/-- An instruction has as many operand bytes as its opcode byte asks for (R99). -/
theorem operandCountAt_opcode {m : OpcodeMap} {i : Instr} (hm : m.valid = true) (hi : i.wfUnder m = true) :
    operandCountAt m (i.opcode m) = i.operandBytes.length := by
  rw [operandCountAt, OpcodeMap.formAt_opcode hm hi]
  cases hf : i.form with
  | some f => exact (Instr.operandBytes_length hf).symm
  | none => rcases Instr.form_none hf with ⟨op, rfl⟩ | ⟨op, rfl⟩ <;> rfl

/-- An instruction is what its opcode byte and its operand bytes stand for. -/
theorem instrAt_opcode {m : OpcodeMap} {i : Instr} (hm : m.valid = true) (hi : i.wfUnder m = true) :
    instrAt m (i.opcode m) (i.operandBytes[0]?.getD 0) (i.operandBytes[1]?.getD 0) = i := by
  rw [instrAt, OpcodeMap.formAt_opcode hm hi]
  cases hf : i.form with
  | some f => exact (Instr.eq_instr hf).symm
  | none =>
    rcases Instr.form_none hf with ⟨op, rfl⟩ | ⟨op, rfl⟩
    · simp only [Instr.wfUnder, Bool.and_eq_true, decide_eq_true_eq] at hi
      exact if_pos hi.1
    · exact if_neg (Nat.not_lt.mpr (of_decide_eq_true hi))

/-- What an opcode byte stands for is well formed (R93, R94). -/
theorem instrAt_wfUnder (m : OpcodeMap) (op b1 b2 : Byte) : (instrAt m op b1 b2).wfUnder m = true := by
  rcases instrAt_cases m op b1 b2 with ⟨f, _, he⟩ | ⟨hf, hlt, he⟩ | ⟨_, hge, he⟩ <;> rw [he]
  · cases f <;> rfl
  · simp [Instr.wfUnder, hlt, hf]
  · simpa [Instr.wfUnder] using hge

/-- Under a legal map the opcode byte of what an opcode byte stands for is that byte. -/
theorem opcode_instrAt {m : OpcodeMap} (hm : m.valid = true) (op b1 b2 : Byte) : (instrAt m op b1 b2).opcode m = op := by
  rcases instrAt_cases m op b1 b2 with ⟨f, hf, he⟩ | ⟨_, _, he⟩ | ⟨_, _, he⟩ <;> rw [he]
  · rw [Instr.opcode_of_form (Form.instr_form f b1 b2), OpcodeMap.codeOf_of_formAt hm hf]
  · rfl
  · rfl

/-- The operand bytes of what an opcode byte stands for are those it asks for. -/
theorem operandBytes_instrAt (m : OpcodeMap) (op b1 b2 : Byte) :
    (instrAt m op b1 b2).operandBytes = ([b1, b2] : List Byte).take (operandCountAt m op) := by
  rw [operandCountAt]
  rcases instrAt_cases m op b1 b2 with ⟨f, hf, he⟩ | ⟨hf, _, he⟩ | ⟨hf, _, he⟩ <;> rw [he, hf]
  · exact f.instr_operandBytes b1 b2
  · rfl
  · rfl

/-- A list of at most two bytes is made of its first two elements. -/
theorem take_getD_pair {l : List Byte} (h : l.length ≤ 2) :
    ([l[0]?.getD 0, l[1]?.getD 0] : List Byte).take l.length = l := by
  match l, h with
  | [], _ => rfl
  | [_], _ => rfl
  | [_, _], _ => rfl

/-- What the decoder gives: the operand bytes its opcode byte asks for are there, and with them it makes the instruction. -/
theorem decodeWith_cons_ok {m : OpcodeMap} {op : Byte} {bytes rest : List Byte} {i : Instr}
    (h : decodeWith m (op :: bytes) = .ok (i, rest)) :
    operandCountAt m op ≤ bytes.length ∧
      i = instrAt m op ((bytes.take (operandCountAt m op))[0]?.getD 0) ((bytes.take (operandCountAt m op))[1]?.getD 0) ∧
      rest = bytes.drop (operandCountAt m op) := by
  rw [decodeWith_cons] at h
  split at h
  · next hle =>
    cases h
    exact ⟨hle, rfl, rfl⟩
  · cases h

/-- With two bytes after the opcode byte the decoder always has the operand bytes it needs. -/
theorem decodeWith_three (m : OpcodeMap) (op b1 b2 : Byte) :
    decodeWith m [op, b1, b2] = .ok (instrAt m op b1 b2, ([b1, b2] : List Byte).drop (operandCountAt m op)) := by
  have hle : operandCountAt m op ≤ ([b1, b2] : List Byte).length := operandCountAt_le m op
  rw [decodeWith_cons, if_pos hle]
  congr 2
  refine instrAt_congr (fun h1 => ?_) (fun h2 => ?_)
  · rw [List.getElem?_take_of_lt (by omega)]; rfl
  · rw [List.getElem?_take_of_lt (by omega)]; rfl

/-- Settles O12: the opcode byte selects the instruction's form, so the decoder takes exactly its operand bytes. -/
theorem decodeOfEncodeIsIdentity : Obligations.DecodeOfEncodeIsIdentity := by
  intro map i rest hm hi
  have hn := operandCountAt_opcode hm hi
  rw [encodeWith, List.cons_append, decodeWith_cons, hn, if_pos (by simp), List.take_left, List.drop_left,
    instrAt_opcode hm hi]

/-- Settles O13: the opcode byte and the operand bytes taken are those of the instruction made. -/
theorem encodeOfDecodeIsIdentity : Obligations.EncodeOfDecodeIsIdentity := by
  intro map bytes rest i hm h
  cases bytes with
  | nil => cases h
  | cons op bytes =>
    obtain ⟨hle, rfl, rfl⟩ := decodeWith_cons_ok h
    refine ⟨instrAt_wfUnder .., ?_⟩
    have htake : (bytes.take (operandCountAt map op)).length = operandCountAt map op := List.length_take_of_le hle
    have hpair := take_getD_pair (htake.trans_le (operandCountAt_le map op))
    rw [htake] at hpair
    rw [encodeWith, opcode_instrAt hm, operandBytes_instrAt, hpair, List.cons_append, List.take_append_drop]

/-- Settles O14: an instruction's length is one more than the operand bytes its opcode byte asks for. -/
theorem opcodeAloneGivesTheLength : Obligations.OpcodeAloneGivesTheLength := by
  intro map op r1 r2 s1 s2 i j h1 h2
  obtain ⟨hle1, rfl, rfl⟩ := decodeWith_cons_ok h1
  obtain ⟨hle2, rfl, rfl⟩ := decodeWith_cons_ok h2
  rw [instrAt_length, instrAt_length, List.length_drop, List.length_drop]
  exact ⟨rfl, by omega, by omega⟩

/-- Settles O10, by computing the table. -/
theorem defaultMapFollowsTheTable : Obligations.DefaultMapFollowsTheTable :=
  ⟨defaultMap_valid, by decide, rfl⟩

/-- Settles O11: each word is decoded by computation. -/
theorem writtenOutWordsDecode : Obligations.WrittenOutWordsDecode :=
  ⟨rfl, rfl, rfl, rfl, rfl, rfl, rfl, rfl, rfl, rfl⟩

end Sys2Proof

namespace Sys2Proof.Machine

/-! ### Steps by what the decoder makes of the bytes at PC -/

theorem stepWith_of_fetch_ok {map : OpcodeMap} {s : State} {i : Instr} (hf : s.fault = none)
    (he : fetchInstr map s = .ok i) : stepWith map s = exec i s := by
  rw [stepWith_none hf, he]

/-- An opcode byte with no documented instruction is fetched alone (R93, R94, R255). -/
theorem fetchInstr_no_form {map : OpcodeMap} {s : State} (hp : s.pc.toNat < 0x2000)
    (h : map.formAt (s.mem.get s.pc.toNat) = none) :
    fetchInstr map s = .ok (if (s.mem.get s.pc.toNat).toNat < 0x32 then .undocumented (s.mem.get s.pc.toNat)
      else .illegal (s.mem.get s.pc.toNat)) := by
  have hn : operandCountAt map (s.mem.get s.pc.toNat) = 0 := by rw [operandCountAt, h]
  rw [fetchInstr_backed (by omega), instrAt, h]

/-- An undocumented instruction is fetched only where the opcode byte at PC is in range and unassigned (R94). -/
theorem fetchInstr_undocumented {map : OpcodeMap} {s : State} {op : Byte} (h : fetchInstr map s = .ok (.undocumented op)) :
    s.pc.toNat < 0x2000 ∧ op = s.mem.get s.pc.toNat ∧ map.formAt op = none ∧ op.toNat < 0x32 := by
  rcases fetchFrom_cases map s.mem s.mem s.mem s.pc with ⟨_, he⟩ | ⟨_, _, he⟩ | ⟨hp, b1, b2, he, _⟩ <;>
    rw [fetchInstr, he] at h
  · cases h
  · cases h
  injection h with h
  rcases instrAt_cases map (s.mem.get s.pc.toNat) b1 b2 with ⟨f, _, hi⟩ | ⟨hf, hlt, hi⟩ | ⟨_, _, hi⟩ <;> rw [hi] at h
  · have := f.instr_form b1 b2
    rw [h] at this
    cases this
  · cases h
    exact ⟨by omega, rfl, hf, hlt⟩
  · cases h

/-- Settles O4: the fetch reads the bytes the decoder reads. -/
theorem stepRunsTheDecodedInstruction : Obligations.StepRunsTheDecodedInstruction := by
  intro s i rest hf hd hl
  rw [decode, decodeWith_three] at hd
  cases hd
  rw [instrAt_length] at hl
  exact stepWith_of_fetch_ok hf (fetchInstr_backed (by omega))

/-- With all three bytes at PC backed, a step runs what the decoder makes of them, whatever its length. -/
theorem step_of_three_backed {s : State} {op b1 b2 : Byte} {i : Instr} {rest : List Byte} (hf : s.fault = none)
    (hp : s.pc.toNat + 3 ≤ 0x2000) (h0 : s.mem.get s.pc.toNat = op) (h1 : s.mem.get (s.pc.toNat + 1) = b1)
    (h2 : s.mem.get (s.pc.toNat + 2) = b2) (hd : decode [op, b1, b2] = .ok (i, rest)) : step s = exec i s := by
  subst h0 h1 h2
  refine stepRunsTheDecodedInstruction s i rest hf hd ?_
  rw [decode, decodeWith_three] at hd
  cases hd
  have := operandCountAt_le defaultMap (s.mem.get s.pc.toNat)
  rw [instrAt_length]
  omega

/-- Settles O7: the byte is fetched alone, as `illegal`. -/
theorem opcodeAboveRangeRaisesUnknownInstruction : Obligations.OpcodeAboveRangeRaisesUnknownInstruction := by
  refine ⟨fun map s hf hp hop => ?_, fun _ _ => rfl⟩
  have he := fetchInstr_no_form hp (OpcodeMap.formAt_above (m := map) hop)
  rw [if_neg (by omega)] at he
  exact stepWith_of_fetch_ok hf he

/-- Settles O8: the byte is fetched alone, as `undocumented`; the default map's codes are compared one by one. -/
theorem undocumentedOpcodeIsRefused : Obligations.UndocumentedOpcodeIsRefused := by
  refine ⟨fun map s hf hp hlt hop => ?_, fun _ _ => rfl, fun op hlt => ?_⟩
  · have he := fetchInstr_no_form hp hop
    rw [if_pos hlt] at he
    exact stepWith_of_fetch_ok hf he
  · have codes : ∀ k : Fin 0x32, defaultMap.formAt (BitVec.ofNat 8 k.val) = none ↔ 0x2A ≤ k.val := by decide
    simpa using codes ⟨op.toNat, hlt⟩

/-- Settles O9: of the ways a step can end, a refusal is that of an undocumented instruction fetched. -/
theorem onlyUndocumentedOpcodesAreRefused : Obligations.OnlyUndocumentedOpcodesAreRefused := by
  intro map s r h
  rcases stepWith_cases map s with ⟨_, _, he⟩ | ⟨hf, ⟨op, hi, he⟩ | ⟨_, he⟩ | ⟨_, _, _, _, he, _⟩ | ⟨_, _, _, _, _, _, he⟩⟩ <;>
    rw [he] at h <;> cases h
  obtain ⟨hp, rfl, hform, hlt⟩ := fetchInstr_undocumented hi
  exact ⟨hf, hp, rfl, hform, hlt⟩

/-! ### Placing bytes where the next step fetches -/

/-- Bytes placed in backed memory stand at successive addresses, and nothing in front of them changes (R71). -/
theorem get_placeBytes (bytes : List Byte) : ∀ {m : Memory} {a : Word}, m.wf = true → a.toNat + bytes.length ≤ 0x2000 →
    (∀ b, b < a.toNat → (placeBytes m a bytes).get b = m.get b) ∧
    ∀ k v, bytes[k]? = some v → (placeBytes m a bytes).get (a.toNat + k) = v := by
  induction bytes with
  | nil => exact fun _ _ => ⟨fun _ _ => rfl, fun k v hk => by simp at hk⟩
  | cons w bytes ih =>
    intro m a hm hl
    rw [List.length_cons] at hl
    have ha : a.toNat < 0x2000 := by omega
    have hnext : (a + 1).toNat = a.toNat + 1 := by bv_omega
    obtain ⟨below, placed⟩ := ih (Memory.wf_set w hm ha) (a := a + 1) (by omega)
    rw [hnext] at below placed
    simp only [placeBytes, if_pos ha]
    refine ⟨fun b hb => ?_, fun k v hk => ?_⟩
    · rw [below b (by omega), Memory.get_set_other m w (by omega)]
    · cases k with
      | zero =>
        cases hk
        rw [Nat.add_zero, below a.toNat (by omega), Memory.get_set_self _ _ hm]
      | succ k =>
        rw [show a.toNat + (k + 1) = a.toNat + 1 + k by omega]
        exact placed k v (by simpa using hk)

/-- Settles O15: the three bytes at PC are the word's. -/
theorem placedWordIsTheNextInstruction : Obligations.PlacedWordIsTheNextInstruction := by
  intro s nbits w i hs hf hp hd
  obtain ⟨_, placed⟩ := get_placeBytes (tableBytes nbits w) hs hp
  unfold decodeTableWord at hd
  split at hd
  · next j rest hj =>
    cases hd
    exact step_of_three_backed (s := s.withFetchWord nbits w) hf hp (placed 0 _ rfl) (placed 1 _ rfl) (placed 2 _ rfl) hj
  · cases hd

/-! ### Idioms -/

/-- A step runs the 16-bit branch on A = 0 that stands at PC with its operand low byte first, under the default map. -/
theorem step_beq16 {s : State} {t : Word} (hf : s.fault = none) (hp : s.pc.toNat + 3 ≤ 0x2000)
    (h0 : s.mem.get s.pc.toNat = 0x26) (h1 : s.mem.get (s.pc.toNat + 1) = lowByte t)
    (h2 : s.mem.get (s.pc.toNat + 2) = highByte t) :
    step s = .next (s.setPc (if condEq s.a then t else s.pc + 3)) := by
  have hd : decode [0x26, lowByte t, highByte t] = .ok (.beq16 (concat16 (highByte t) (lowByte t)), []) := rfl
  rw [concat16_bytes] at hd
  exact (step_of_three_backed hf hp h0 h1 h2 hd).trans (branch16_eq (condEq s.a) t s)

/-- The same for the branch on A ≠ 0. -/
theorem step_bne16 {s : State} {t : Word} (hf : s.fault = none) (hp : s.pc.toNat + 3 ≤ 0x2000)
    (h0 : s.mem.get s.pc.toNat = 0x27) (h1 : s.mem.get (s.pc.toNat + 1) = lowByte t)
    (h2 : s.mem.get (s.pc.toNat + 2) = highByte t) :
    step s = .next (s.setPc (if condNe s.a then t else s.pc + 3)) := by
  have hd : decode [0x27, lowByte t, highByte t] = .ok (.bne16 (concat16 (highByte t) (lowByte t)), []) := rfl
  rw [concat16_bytes] at hd
  exact (step_of_three_backed hf hp h0 h1 h2 hd).trans (branch16_eq (condNe s.a) t s)

/-- Settles O48: with A = 0 the first branch is taken, else the second one is. -/
theorem unconditionalJumpIdiom : Obligations.UnconditionalJumpIdiom := by
  intro s t hf hp h0 h1 h2 h3 h4 h5
  have first := step_beq16 hf (by omega) h0 h1 h2
  cases hc : condEq s.a with
  | true =>
    rw [hc] at first
    exact ⟨1, .inl rfl, .more ⟨first, hf⟩ (.done _)⟩
  | false =>
    rw [hc] at first
    have hpc : (s.setPc (s.pc + 3)).pc.toNat = s.pc.toNat + 3 := by
      rw [State.setPc_pc]
      bv_omega
    have second : step (s.setPc (s.pc + 3)) = _ := step_bne16 (t := t) hf (by omega)
      (by rw [hpc]; exact h3) (by rw [hpc]; exact h4) (by rw [hpc]; exact h5)
    obtain ⟨_, _, _, _, hne, _⟩ := conditionsPartitionA s.a
    rw [State.setPc_a, hne, hc] at second
    exact ⟨2, .inr rfl, .more ⟨first, hf⟩ (.more ⟨second, hf⟩ (.done _))⟩

/-- Settles O49: taken or not, the branch leads to PC + 3. -/
theorem noOperationIdiom : Obligations.NoOperationIdiom := by
  intro s hf hp h0 h1 h2
  rw [step_beq16 hf hp h0 h1 h2, ite_self]
  rfl

end Sys2Proof.Machine

namespace Sys2Proof.Machine

/-! ### Numbers as operands -/

/-- The decimal text of a number is the literal of that number (`30_encoding.md` R112). -/
theorem parseLiteral_decText (n : Nat) : parseLiteral (decText n) = some n := by
  have hparse : parseDigits 10 (decText n) = some n := parse_digitsText (by omega) (by omega) n
  have hdigit : ∀ c ∈ decText n, digitValue c ≠ none := by
    intro c hc
    obtain ⟨d, hd, rfl⟩ := digitsText_digits (by omega) (by omega) n n c hc
    simp [digitValue_digitChar hd]
  unfold parseLiteral
  split
  · next ds he => exact absurd (by decide) (hdigit '$' (by simp [he]))
  · next ds he => exact absurd (by decide) (hdigit '%' (by simp [he]))
  · exact hparse

/-- The last of the bound names is looked up, where it was not bound before. -/
theorem lookupName_snoc {table : List Binding} {b : Binding} (h : lookupName table b.name = none) :
    lookupName (table ++ [b]) b.name = some b.value := by
  unfold lookupName at h ⊢
  rw [Option.map_eq_none_iff] at h
  rw [List.find?_append, h]
  simp

/-- A label that is bound stands for the decimal text of its address (R115). -/
theorem lookupName_bindLabel {l : SrcLine} {table table' : List Binding} {name : Text} {addr : Nat}
    (h : bindLabel l table (some name) addr = .ok table') : lookupName table' name = some (decText addr) := by
  obtain ⟨rfl, hnone⟩ := bindName_ok h
  exact lookupName_snoc hnone

/-- A name bound to the text of a number has the value of that number as an operand token (R118). -/
theorem resolve_decText {table : List Binding} {name : Text} {n : Nat} (h : lookupName table name = some (decText n))
    (l : SrcLine) : resolve l table name = .ok n := by
  simp only [resolve, h, Option.getD_some, parseLiteral_decText]

/-- Settles O60: a label's text is the literal of its address, and stays under names bound later. -/
theorem labelTextIsItsAddress : Obligations.LabelTextIsItsAddress := by
  refine ⟨parseLiteral_decText, fun l l' table table' more name addr h => ?_⟩
  have hl := lookupName_bindLabel h
  exact ⟨hl, resolve_decText (lookupName_append hl more) l'⟩

/-! ### Images: the segments of the writer's lines

The body lines of an image, read one by one, are a tiling of the image addresses (`30_encoding.md` R125): from it follow
that no two segments meet, that each address is in exactly one, and what loading the image does. -/

/-- What the body lines of a sparse memory say, from an image address on (R125). -/
def bodySegments (cursor : Nat) : Sparse → List Segment
  | [] => if cursor ≤ 0xFFF then [⟨cursor, 0xFFF, 0⟩] else []
  | (a, v) :: rest => (if cursor < a then [⟨cursor, a - 1, 0⟩] else []) ++ ⟨a, a, v⟩ :: bodySegments (a + 1) rest

/-- The segments cover the addresses from `lo` on and below `hi`, ascending, with no gap and no overlap. -/
def Tiles (hi : Nat) : Nat → List Segment → Prop
  | lo, [] => lo = hi
  | lo, q :: rest => q.first = lo ∧ lo ≤ q.last ∧ q.last < hi ∧ Tiles hi (q.last + 1) rest

namespace Tiles

theorem cons {hi first last : Nat} {segs : List Segment} (v : Byte) (hle : first ≤ last) (hlt : last < hi)
    (h : Tiles hi (last + 1) segs) : Tiles hi first (⟨first, last, v⟩ :: segs) := ⟨rfl, hle, hlt, h⟩

theorem bounds {hi : Nat} {segs : List Segment} : ∀ {lo : Nat}, Tiles hi lo segs → ∀ q ∈ segs,
    lo ≤ q.first ∧ q.first ≤ q.last ∧ q.last < hi := by
  induction segs with
  | nil => intro _ _ q hq; cases hq
  | cons p segs ih =>
    rintro lo ⟨hfirst, hle, hlt, htail⟩ q hq
    rcases List.mem_cons.mp hq with rfl | hq
    · omega
    · have := ih htail q hq
      omega

/-- No address is named twice (D31). -/
theorem disjoint {hi : Nat} {segs : List Segment} : ∀ {lo : Nat}, Tiles hi lo segs → segmentsDisjoint segs = true := by
  induction segs with
  | nil => intro _ _; rfl
  | cons p segs ih =>
    rintro lo ⟨_, _, _, htail⟩
    rw [segmentsDisjoint, Bool.and_eq_true, List.all_eq_true]
    refine ⟨fun q hq => ?_, ih htail⟩
    have := htail.bounds q hq
    simp only [Segment.disjoint, Bool.or_eq_true, decide_eq_true_eq]
    omega

/-- Each address of the range is in exactly one segment (R125). -/
theorem covers {hi a : Nat} {segs : List Segment} : ∀ {lo : Nat}, Tiles hi lo segs → lo ≤ a → a < hi →
    ∃ pre seg post, segs = pre ++ seg :: post ∧ seg.first ≤ a ∧ a ≤ seg.last ∧
      ∀ q ∈ pre ++ post, a < q.first ∨ q.last < a := by
  induction segs with
  | nil =>
    intro lo h h1 h2
    have : lo = hi := h
    omega
  | cons p segs ih =>
    rintro lo ⟨hfirst, hle, hlt, htail⟩ h1 h2
    by_cases ha : a ≤ p.last
    · refine ⟨[], p, segs, rfl, by omega, ha, fun q hq => .inl ?_⟩
      have := htail.bounds q hq
      omega
    · obtain ⟨pre, seg, post, rfl, hf, hl, hother⟩ := ih htail (by omega) h2
      refine ⟨p :: pre, seg, post, rfl, hf, hl, fun q hq => ?_⟩
      rcases List.mem_cons.mp hq with rfl | hq
      · exact .inr (by omega)
      · exact hother q hq

/-- Loading a tiling sets every byte of its range, at address + image base, and no other (R71, R73). -/
theorem get_loadSegments {hi base : Nat} {f : Nat → Byte} {segs : List Segment} (hb : base + hi ≤ 0x2000) :
    ∀ {lo : Nat} {m : Memory}, Tiles hi lo segs →
      (∀ q ∈ segs, ∀ a, q.first ≤ a → a ≤ q.last → q.value = f a) → m.wf = true →
      ∀ b, (loadSegments base segs m).get b = if base + lo ≤ b ∧ b < base + hi then f (b - base) else m.get b := by
  induction segs with
  | nil =>
    intro lo m h _ _ b
    have : lo = hi := h
    rw [if_neg (by omega)]; rfl
  | cons p segs ih =>
    rintro lo m ⟨hfirst, hle, hlt, htail⟩ hv hm b
    have hrun : base + p.first + (p.last + 1 - p.first) ≤ 0x2000 := by omega
    have hload : loadSegments base (p :: segs) m =
      loadSegments base segs (fillBytes m (base + p.first) (p.last + 1 - p.first) p.value) := rfl
    rw [hload, ih htail (fun q hq => hv q (List.mem_cons_of_mem _ hq)) (wf_fillBytes _ _ _ hm hrun),
      get_fillBytes _ _ _ _ hm hrun]
    by_cases hin : base + p.first ≤ b ∧ b ≤ base + p.last
    · rw [if_neg (by omega), if_pos (by omega), if_pos (by omega)]
      exact hv p List.mem_cons_self (b - base) (by omega) (by omega)
    · by_cases hrest : base + (p.last + 1) ≤ b ∧ b < base + hi
      · rw [if_pos hrest, if_pos (by omega)]
      · rw [if_neg hrest, if_neg (by omega), if_neg (by omega)]

theorem wf_loadSegments {hi base lo : Nat} {segs : List Segment} {m : Memory} (hb : base + hi ≤ 0x2000)
    (h : Tiles hi lo segs) (hm : m.wf = true) : (loadSegments base segs m).wf = true :=
  Machine.wf_loadSegments segs hm fun q hq => by
    have := h.bounds q hq
    omega

end Tiles

/-- The body the writer writes is read as its segments. -/
theorem parseBody_bodyLines {m : Sparse} : ∀ {c : Nat}, m.within c 0x1000 = true → ∀ {rest : List Text} {segs : List Segment},
    parseBody rest = some segs → parseBody (bodyLines c m ++ rest) = some (bodySegments c m ++ segs) := by
  induction m with
  | nil =>
    intro c _ rest segs h
    rw [bodyLines, bodySegments]
    split
    · next hc => rw [List.singleton_append, parseBody_cons (parseSegment_fillLine hc (Nat.le_refl _)), h]; rfl
    · exact h
  | cons q m ih =>
    obtain ⟨a, v⟩ := q
    intro c hw rest segs h
    obtain ⟨hca, ha, hm⟩ := Sparse.within_cons.mp hw
    have tail : parseBody (byteLine a v :: (bodyLines (a + 1) m ++ rest)) =
        some (⟨a, a, v⟩ :: (bodySegments (a + 1) m ++ segs)) := by
      rw [parseBody_cons (parseSegment_byteLine (by omega) v), ih hm h]; rfl
    rw [bodyLines, bodySegments, List.append_assoc, List.append_assoc, List.cons_append, List.cons_append]
    split
    · rw [List.singleton_append, parseBody_cons (parseSegment_fillLine (by omega) (by omega)), tail]; rfl
    · exact tail

/-- The segments of a sparse memory tile the image. -/
theorem tiles_bodySegments {m : Sparse} : ∀ {c : Nat}, c ≤ 0x1000 → m.within c 0x1000 = true →
    Tiles 0x1000 c (bodySegments c m) := by
  induction m with
  | nil =>
    intro c hc _
    rw [bodySegments]
    split
    · next h => exact .cons 0 h (by omega) rfl
    · exact (show c = 0x1000 by omega)
  | cons q m ih =>
    obtain ⟨a, v⟩ := q
    intro c _ hw
    obtain ⟨hca, ha, hm⟩ := Sparse.within_cons.mp hw
    have tail : Tiles 0x1000 a (⟨a, a, v⟩ :: bodySegments (a + 1) m) := .cons v (Nat.le_refl a) ha (ih (by omega) hm)
    rw [bodySegments]
    split
    · exact .cons 0 (by omega) (by omega) (by rwa [Nat.sub_add_cancel (by omega)])
    · rwa [show c = a by omega]

/-- A segment of a sparse memory holds the byte written at each of its addresses, 0 where none was. -/
theorem value_of_mem_bodySegments {m : Sparse} : ∀ {c : Nat}, m.within c 0x1000 = true → ∀ q ∈ bodySegments c m,
    ∀ a, q.first ≤ a → a ≤ q.last → q.value = (m.find a).getD 0 := by
  induction m with
  | nil =>
    intro c _ q hq a _ _
    rw [bodySegments] at hq
    split at hq
    · rw [List.mem_singleton] at hq; subst hq; rfl
    · cases hq
  | cons p m ih =>
    obtain ⟨k, v⟩ := p
    intro c hw q hq a h1 h2
    obtain ⟨hck, hk, hm⟩ := Sparse.within_cons.mp hw
    rw [bodySegments, List.mem_append, List.mem_cons] at hq
    rcases hq with hq | rfl | hq
    · split at hq
      · rw [List.mem_singleton] at hq
        subst hq
        dsimp only at h1 h2
        rw [Sparse.find, if_neg (by omega), Sparse.find_below hm (by omega)]; rfl
      · cases hq
    · rw [Sparse.find, if_pos (Nat.le_antisymm h1 h2)]; rfl
    · have hf : k < q.first := ((tiles_bodySegments (by omega) hm).bounds q hq).1
      rw [Sparse.find, if_neg (by omega)]
      exact ih hm q hq a h1 h2

/-- The writer's text is read as the segments of the sparse memory. -/
theorem parseImage_renderImage {m : Sparse} (h : m.within 0 0x1000 = true) :
    parseImage (renderImage m) = .ok (bodySegments 0 m) := by
  have hlines : ∀ l ∈ imageHeader ++ bodyLines 0 m ++ [imageEnd], '\n' ∉ l := by
    intro l hl
    rw [List.mem_append, List.mem_append, List.mem_singleton] at hl
    rcases hl with (hl | hl) | rfl
    · have header : ∀ l ∈ imageHeader, '\n' ∉ l := by decide
      exact header l hl
    · exact bodyLines_noNewline m 0 l hl
    · decide
  have hend : parseBody [imageEnd, []] = some [] := by decide
  have hbody := parseBody_bodyLines h hend
  rw [List.append_nil] at hbody
  rw [parseImage, renderImage, splitLines_joinLines hlines]
  simp only [imageHeader, List.cons_append, List.nil_append, List.append_assoc, hbody, if_true,
    (tiles_bodySegments (Nat.zero_le _) h).disjoint]

/-- Settles O56: the text is read as a tiling of the image addresses. -/
theorem writtenImageIsReadBack : Obligations.WrittenImageIsReadBack := by
  intro m h
  refine ⟨bodySegments 0 m, parseImage_renderImage h, fun a ha => ?_⟩
  obtain ⟨pre, seg, post, hsegs, h1, h2, hother⟩ := (tiles_bodySegments (Nat.zero_le _) h).covers (Nat.zero_le a) ha
  have hmem : seg ∈ bodySegments 0 m := by simp [hsegs]
  exact ⟨pre, seg, post, hsegs, h1, h2, value_of_mem_bodySegments h seg hmem a h1 h2, hother⟩

/-! ### The two images of a memory -/

namespace Sparse

/-- The ROM image holds what is written below 0x1000 (R124). -/
theorem find_rom (m : Sparse) (a : Nat) : m.rom.find a = if a < 0x1000 then m.find a else none := by
  induction m with
  | nil => exact (ite_self _).symm
  | cons q m ih =>
    obtain ⟨k, v⟩ := q
    unfold rom at ih ⊢
    by_cases hk : k < 0x1000
    · rw [List.filter_cons_of_pos (by simpa using hk), find, find, ih]
      split
      · next he => rw [if_pos (he ▸ hk)]
      · rfl
    · rw [List.filter_cons_of_neg (by simpa using hk), ih, find]
      split
      · next ha => rw [if_neg (by omega)]
      · rfl

/-- The RAM image holds what is written from 0x1000 on, rebased (R124). -/
theorem find_ram (m : Sparse) (a : Nat) : m.ram.find a = m.find (0x1000 + a) := by
  induction m with
  | nil => rfl
  | cons q m ih =>
    obtain ⟨k, v⟩ := q
    unfold ram at ih ⊢
    by_cases hk : 0x1000 ≤ k
    · rw [List.filter_cons_of_pos (by simpa using hk), List.map_cons, find, find, ih]
      by_cases he : k = 0x1000 + a
      · rw [if_pos he, if_pos (by omega)]
      · rw [if_neg he, if_neg (by omega)]
    · rw [List.filter_cons_of_neg (by simpa using hk), ih, find, if_neg (by omega)]

theorem within_mono {m : Sparse} {lo lo' hi : Nat} (h : m.within lo hi = true) (hl : lo' ≤ lo) : m.within lo' hi = true := by
  cases m with
  | nil => rfl
  | cons q m =>
    obtain ⟨k, v⟩ := q
    rw [within_cons] at h ⊢
    exact ⟨by omega, h.2⟩

theorem within_rom {m : Sparse} : ∀ {lo hi : Nat}, m.within lo hi = true → m.rom.within lo 0x1000 = true := by
  induction m with
  | nil => intros; rfl
  | cons q m ih =>
    obtain ⟨k, v⟩ := q
    intro lo hi h
    obtain ⟨hlo, _, htail⟩ := within_cons.mp h
    unfold rom at ih ⊢
    by_cases hk : k < 0x1000
    · rw [List.filter_cons_of_pos (by simpa using hk), within_cons]
      exact ⟨hlo, hk, ih htail⟩
    · rw [List.filter_cons_of_neg (by simpa using hk)]
      exact within_mono (ih htail) (by omega)

theorem within_ram {m : Sparse} : ∀ {lo : Nat}, m.within lo 0x2000 = true → m.ram.within (lo - 0x1000) 0x1000 = true := by
  induction m with
  | nil => intros; rfl
  | cons q m ih =>
    obtain ⟨k, v⟩ := q
    intro lo h
    obtain ⟨hlo, hhi, htail⟩ := within_cons.mp h
    unfold ram at ih ⊢
    by_cases hk : 0x1000 ≤ k
    · rw [List.filter_cons_of_pos (by simpa using hk), List.map_cons, within_cons]
      exact ⟨by omega, by omega, within_mono (ih htail) (by omega)⟩
    · rw [List.filter_cons_of_neg (by simpa using hk)]
      exact within_mono (ih htail) (by omega)

end Sparse

/-- Loading the segments of a sparse memory sets the bytes at an image base, 0 where none was written, and no other. -/
theorem get_load_bodySegments {m : Sparse} (h : m.within 0 0x1000 = true) {base : Nat} (hb : base ≤ 0x1000) {mem : Memory}
    (hm : mem.wf = true) (b : Nat) : (loadSegments base (bodySegments 0 m) mem).get b =
      if base ≤ b ∧ b < base + 0x1000 then (m.find (b - base)).getD 0 else mem.get b :=
  (tiles_bodySegments (Nat.zero_le _) h).get_loadSegments (by omega) (value_of_mem_bodySegments h) hm b

/-- The two images of a sparse memory load to its bytes, and 0 elsewhere (R126). -/
theorem loadImages_images {m : Sparse} (h : m.within 0 0x2000 = true) :
    ∃ mem, loadImages (some (romImage m)) (some (ramImage m)) = .ok mem ∧ mem.wf = true ∧
      ∀ a, mem.get a = (m.find a).getD 0 := by
  have hrom : m.rom.within 0 0x1000 = true := Sparse.within_rom h
  have hram : m.ram.within 0 0x1000 = true := Sparse.within_ram (lo := 0) h
  have hwf : (loadSegments 0 (bodySegments 0 m.rom) []).wf = true :=
    (tiles_bodySegments (Nat.zero_le _) hrom).wf_loadSegments (by omega) rfl
  refine ⟨loadSegments 0x1000 (bodySegments 0 m.ram) (loadSegments 0 (bodySegments 0 m.rom) []), ?_,
    (tiles_bodySegments (Nat.zero_le _) hram).wf_loadSegments (by omega) hwf, fun a => ?_⟩
  · simp only [loadImages, parseOptImage, romImage, ramImage, parseImage_renderImage hrom, parseImage_renderImage hram]
  · rw [get_load_bodySegments hram (by omega) hwf, get_load_bodySegments hrom (by omega) rfl]
    by_cases ha : a < 0x1000
    · rw [if_neg (by omega), if_pos (by omega), Sparse.find_rom, Nat.sub_zero, if_pos ha]
    · by_cases ha' : a < 0x2000
      · rw [if_pos (by omega), Sparse.find_ram, Nat.add_sub_cancel' (by omega)]
      · rw [if_neg (by omega), if_neg (by omega), Sparse.find_above h (by omega)]
        rfl

end Sys2Proof.Machine

namespace Sys2Proof.Machine

/-! ### Writing bytes that cannot be written -/

/-- No byte is put at an address already written. -/
theorem Sparse.put_written {hi a : Nat} {m : Sparse} (v : Byte) : ∀ {lo : Nat}, m.within lo hi = true →
    (m.find a).isSome = true → m.put a v = none := by
  induction m with
  | nil => intro _ _ h; cases h
  | cons q m ih =>
    obtain ⟨k, w⟩ := q
    intro lo hw h
    obtain ⟨_, _, htail⟩ := Sparse.within_cons.mp hw
    rw [find] at h
    rw [put]
    by_cases hk : k = a
    · rw [if_neg (by omega), if_pos hk.symm]
    · rw [if_neg hk] at h
      have hlt : k < a := by
        by_contra hc
        rw [find_below htail (by omega)] at h
        cases h
      rw [if_neg (by omega), if_neg (by omega), ih htail h]
      rfl

/-! ### Pass 1: what a directive leaves alone -/

/-- The line table is the same, and what is written stays one byte an address below 0x2000. -/
def KeepsForm (st st' : AsmState) : Prop :=
  st'.lines = st.lines ∧ (st.memory.within 0 0x2000 = true → st'.memory.within 0 0x2000 = true)

theorem KeepsForm.trans {st st' st'' : AsmState} (h : KeepsForm st st') (h' : KeepsForm st' st'') : KeepsForm st st'' :=
  ⟨h'.1.trans h.1, h'.2 ∘ h.2⟩

theorem placeData_keepsForm {l : SrcLine} {label : Option Text} {st st' : AsmState} {bytes : List Byte}
    (h : placeData l label st bytes = .ok st') : KeepsForm st st' := by
  unfold placeData at h
  split at h
  · cases h
  · next memory hm =>
    split at h <;> cases h
    exact ⟨rfl, fun hw => (emitBytes_ok hw hm).1⟩

theorem runOrg_keepsForm {l : SrcLine} {p : Parts} {st st' : AsmState} (h : runOrg l p st = .ok st') : KeepsForm st st' := by
  unfold runOrg at h
  split at h
  · cases h
  · split at h
    · cases h
    · split at h <;> cases h
      exact ⟨rfl, id⟩

theorem runEqu_keepsForm {l : SrcLine} {p : Parts} {st st' : AsmState} (h : runEqu l p st = .ok st') : KeepsForm st st' := by
  unfold runEqu at h
  split at h
  · split at h <;> cases h
    exact ⟨rfl, id⟩
  · cases h

theorem runDcb_keepsForm {l : SrcLine} {p : Parts} {st st' : AsmState} (h : runDcb l p st = .ok st') : KeepsForm st st' := by
  unfold runDcb at h
  split at h
  · cases h
  · exact placeData_keepsForm h

theorem runDsb_keepsForm {l : SrcLine} {p : Parts} {st st' : AsmState} (h : runDsb l p st = .ok st') : KeepsForm st st' := by
  unfold runDsb at h
  split at h
  · cases h
  · exact placeData_keepsForm h

theorem runDirective_keepsForm {d : Directive} {l : SrcLine} {p : Parts} {st st' : AsmState}
    (h : runDirective d l p st = .ok st') : KeepsForm st st' := by
  cases d with
  | org => exact runOrg_keepsForm h
  | equ => exact runEqu_keepsForm h
  | dcb | db => exact runDcb_keepsForm h
  | dsb => exact runDsb_keepsForm h

theorem pass1_keepsForm {ls : List SrcLine} : ∀ {st st' : AsmState}, pass1 st ls = .ok st' → KeepsForm st st' := by
  induction ls with
  | nil => intro st st' h; cases h; exact ⟨rfl, id⟩
  | cons l ls ih =>
    intro st st' h
    simp only [pass1] at h
    split at h
    · exact ih h
    · split at h
      · cases h
      · next hd => exact (runDirective_keepsForm hd).trans (ih h)

/-! ### Passes 2 and 3, line by line -/

/-- Whether a preprocessed line is an instruction line: its word is no directive (R110, R113). -/
def isInstructionLine (l : SrcLine) : Bool := (directiveOf (partsOf l.text).word).isNone

/-- Pass 2 skips a directive line, and binds the label of an instruction line to the cursor and advances (R117). -/
theorem pass2_cons_ok {st st' : AsmState} {l : SrcLine} {ls : List SrcLine} (h : pass2 st (l :: ls) = .ok st') :
    (isInstructionLine l = false ∧ pass2 st ls = .ok st') ∨
    (isInstructionLine l = true ∧ ∃ f token names, matchLine l (partsOf l.text) = .ok (f, token) ∧
      bindLabel l st.names (partsOf l.text).label st.cursor = .ok names ∧
      pass2 { st with names, cursor := st.cursor + f.length } ls = .ok st') := by
  simp only [pass2] at h
  split at h
  · next hd => exact .inl ⟨by rw [isInstructionLine, hd]; rfl, h⟩
  · next hd =>
    refine .inr ⟨by rw [isInstructionLine, hd]; rfl, ?_⟩
    split at h
    · cases h
    · next hm =>
      split at h
      · cases h
      · next hn => exact ⟨_, _, _, hm, hn, h⟩

/-- Pass 3 skips a directive line, and writes the encoding of an instruction line at the cursor, lists the line and
advances (R118, R122, R123). -/
theorem pass3_cons_ok {map : OpcodeMap} {st st' : AsmState} {l : SrcLine} {ls : List SrcLine}
    (h : pass3 map st (l :: ls) = .ok st') :
    (isInstructionLine l = false ∧ pass3 map st ls = .ok st') ∨
    (isInstructionLine l = true ∧ ∃ f token value memory, matchLine l (partsOf l.text) = .ok (f, token) ∧
      operandValue l st.names f token = .ok value ∧
      emitBytes l st.memory st.cursor (encodeWith map (formInstrOf f value)) = .ok memory ∧
      pass3 map { st with memory, lines := st.lines ++ [(st.cursor, l.num, l.raw)],
                          cursor := st.cursor + (encodeWith map (formInstrOf f value)).length } ls = .ok st') := by
  simp only [pass3] at h
  split at h
  · next hd => exact .inl ⟨by rw [isInstructionLine, hd]; rfl, h⟩
  · next hd =>
    refine .inr ⟨by rw [isInstructionLine, hd]; rfl, ?_⟩
    split at h
    · cases h
    · next hm =>
      split at h
      · cases h
      · next hv =>
        split at h
        · cases h
        · next he => exact ⟨_, _, _, _, hm, hv, he, h⟩

/-- Pass 2 writes nothing, lists nothing, and leaves the names bound before in front. -/
theorem pass2_ok {ls : List SrcLine} : ∀ {st st' : AsmState}, pass2 st ls = .ok st' →
    st'.memory = st.memory ∧ st'.lines = st.lines ∧ ∃ more, st'.names = st.names ++ more := by
  induction ls with
  | nil => intro st st' h; cases h; exact ⟨rfl, rfl, [], (List.append_nil _).symm⟩
  | cons l ls ih =>
    intro st st' h
    rcases pass2_cons_ok h with ⟨_, h⟩ | ⟨_, f, token, names, _, hn, h⟩
    · exact ih h
    · obtain ⟨hm, hl, more, he⟩ := ih h
      obtain ⟨bound, rfl⟩ := bindLabel_ok hn
      exact ⟨hm, hl, bound ++ more, he.trans (List.append_assoc ..)⟩

/-- Pass 3 keeps every byte written before, one byte an address below 0x2000, and binds no name. -/
theorem pass3_ok {map : OpcodeMap} {ls : List SrcLine} : ∀ {st st' : AsmState}, pass3 map st ls = .ok st' →
    st.memory.within 0 0x2000 = true → st'.memory.within 0 0x2000 = true ∧ st'.names = st.names ∧
      ∀ b v, st.memory.find b = some v → st'.memory.find b = some v := by
  induction ls with
  | nil => intro st st' h hw; cases h; exact ⟨hw, rfl, fun _ _ => id⟩
  | cons l ls ih =>
    intro st st' h hw
    rcases pass3_cons_ok h with ⟨_, h⟩ | ⟨_, f, token, value, memory, _, _, he, h⟩
    · exact ih h hw
    · obtain ⟨hw', kept, _⟩ := emitBytes_ok hw he
      obtain ⟨hw'', hn, kept'⟩ := ih h hw'
      exact ⟨hw'', hn, fun b v hb => kept' b v (kept b v hb)⟩

/-- The encoding of an instruction made from an operand value has the length of its form, by which pass 2 advanced. -/
theorem encodeWith_formInstrOf_length (map : OpcodeMap) (f : Form) (value : Nat) :
    (encodeWith map (formInstrOf f value)).length = f.length := by
  rw [encodeWith, List.length_cons, formInstrOf, Instr.operandBytes_length (Form.instr_form f _ _), Form.length]

/-! ### The line table -/

section LineTable
variable (map : OpcodeMap) (names : List Binding) (memory : Sparse)

/-- A line of the form `f` stands encoded in memory at an address, its operand resolved by the names, and its label has
that address as its value (R117 to R119, R122). -/
def LineEncoded (addr : Nat) (l : SrcLine) (f : Form) : Prop :=
  ∃ token value, matchLine l (partsOf l.text) = .ok (f, token) ∧ operandValue l names f token = .ok value ∧
    (∀ name, (partsOf l.text).label = some name → resolve l names name = .ok addr) ∧
    ∀ j v, (encodeWith map (formInstrOf f value))[j]? = some v → memory.find (addr + j) = some v

/-- The lines stand encoded one after the other from an address on, and the table lists them so (R123). -/
inductive LinesEncoded : Nat → List SrcLine → List (Nat × Nat × Text) → Prop where
  | nil (addr : Nat) : LinesEncoded addr [] []
  | cons {addr : Nat} {l : SrcLine} {f : Form} {code : List SrcLine} {lines : List (Nat × Nat × Text)}
    (line : LineEncoded map names memory addr l f) (rest : LinesEncoded (addr + f.length) code lines) :
    LinesEncoded addr (l :: code) ((addr, l.num, l.raw) :: lines)

end LineTable

namespace LinesEncoded
variable {map : OpcodeMap} {names : List Binding} {memory : Sparse} {addr : Nat} {code : List SrcLine}
  {lines : List (Nat × Nat × Text)}

theorem length_eq (h : LinesEncoded map names memory addr code lines) : lines.length = code.length := by
  induction h with
  | nil => rfl
  | cons _ _ ih => rw [List.length_cons, List.length_cons, ih]

theorem first_addr (h : LinesEncoded map names memory addr code lines) {q : Nat × Nat × Text} (hq : lines[0]? = some q) :
    q.1 = addr := by
  cases h with
  | nil => cases hq
  | cons => cases hq; rfl

/-- The table's `k`-th row is the `k`-th line's, which stands encoded at its address; the next row is a length further. -/
theorem getElem (h : LinesEncoded map names memory addr code lines) : ∀ {k : Nat} {q : Nat × Nat × Text} {l : SrcLine},
    lines[k]? = some q → code[k]? = some l →
    q.2 = (l.num, l.raw) ∧ (k = 0 → q.1 = addr) ∧
      ∃ f, LineEncoded map names memory q.1 l f ∧ ∀ q', lines[k + 1]? = some q' → q'.1 = q.1 + f.length := by
  induction h with
  | nil => intro k q l hq; cases hq
  | cons line rest ih =>
    intro k q l hq hl
    cases k with
    | zero =>
      cases hq
      cases hl
      exact ⟨rfl, fun _ => rfl, _, line, fun q' hq' => rest.first_addr (by simpa using hq')⟩
    | succ k =>
      obtain ⟨hline, _, f, henc, hnext⟩ := ih (by simpa using hq) (by simpa using hl)
      exact ⟨hline, fun hk => by omega, f, henc, fun q' hq' => hnext q' (by simpa using hq')⟩

end LinesEncoded

/-- Passes 2 and 3 from the same address give each instruction line the same one: what pass 2 binds its label to is where
pass 3 writes it. -/
theorem linesEncoded_of_passes {map : OpcodeMap} {ls : List SrcLine} : ∀ {sa st2 sb st3 : AsmState},
    pass2 sa ls = .ok st2 → pass3 map sb ls = .ok st3 → sb.names = st2.names → sb.cursor = sa.cursor →
    sb.memory.within 0 0x2000 = true →
    ∃ lines, st3.lines = sb.lines ++ lines ∧
      LinesEncoded map st2.names st3.memory sa.cursor (ls.filter isInstructionLine) lines := by
  induction ls with
  | nil =>
    intro sa st2 sb st3 _ h3 _ _ _
    cases h3
    exact ⟨[], (List.append_nil _).symm, .nil _⟩
  | cons l ls ih =>
    intro sa st2 sb st3 h2 h3 hn hc hw
    rcases pass2_cons_ok h2 with ⟨hl, h2⟩ | ⟨hl, f, token, names, hm, hbind, h2⟩ <;>
      rcases pass3_cons_ok h3 with ⟨hl', h3⟩ | ⟨hl', f', token', value, memory, hm', hvalue, hemit, h3⟩
    · rw [List.filter_cons_of_neg (by simp [hl])]
      exact ih h2 h3 hn hc hw
    · rw [hl] at hl'
      cases hl'
    · rw [hl] at hl'
      cases hl'
    · rw [hm] at hm'
      cases hm'
      rw [hn] at hvalue
      rw [hc] at hemit h3
      obtain ⟨hw', _, written⟩ := emitBytes_ok hw hemit
      obtain ⟨_, _, kept⟩ := pass3_ok h3 hw'
      obtain ⟨lines, hlines, henc⟩ := ih h2 h3 hn (by rw [encodeWith_formInstrOf_length]) hw'
      obtain ⟨_, _, more, hmore⟩ := pass2_ok h2
      refine ⟨(sa.cursor, l.num, l.raw) :: lines, hlines.trans (List.append_assoc ..), ?_⟩
      rw [List.filter_cons_of_pos hl]
      refine .cons ⟨token, value, hm, hvalue, fun name hname => ?_, fun j v hj => kept _ _ (written j v hj)⟩ henc
      rw [hname] at hbind
      rw [hmore]
      exact resolve_decText (lookupName_append (lookupName_bindLabel hbind) more) l

/-! ### Assembly -/

/-- A source that assembles passes preprocessing and the three passes (R110). -/
theorem assembleWith_ok {map : OpcodeMap} {src : List Text} {out : AsmOutput} (h : assembleWith map src = .ok out) :
    ∃ ls st1 st2 st3, preprocess src = .ok ls ∧
      pass1 { cursor := 0, memory := [], names := [], lines := [] } ls = .ok st1 ∧ pass2 st1 ls = .ok st2 ∧
      pass3 map { st2 with cursor := st1.cursor } ls = .ok st3 ∧
      out = { memory := st3.memory, symbols := st3.names.filter (·.isLabel), lines := st3.lines } := by
  unfold assembleWith at h
  split at h
  · cases h
  · next ls hls =>
    split at h
    · cases h
    · next st1 h1 =>
      split at h
      · cases h
      · next st2 h2 =>
        split at h <;> cases h
        next st3 h3 => exact ⟨ls, st1, st2, st3, hls, h1, h2, h3, rfl⟩

/-- After pass 2 of a source no line is listed, and one byte an address is written, below 0x2000. -/
theorem passes12_ok {ls : List SrcLine} {st1 st2 : AsmState}
    (h1 : pass1 { cursor := 0, memory := [], names := [], lines := [] } ls = .ok st1) (h2 : pass2 st1 ls = .ok st2) :
    st2.lines = [] ∧ st2.memory.within 0 0x2000 = true := by
  obtain ⟨hl1, hw1⟩ := pass1_keepsForm h1
  obtain ⟨hm2, hl2, _⟩ := pass2_ok h2
  exact ⟨hl2.trans hl1, by rw [hm2]; exact hw1 rfl⟩

/-- What assembly writes is one byte an address, all of it below 0x2000. -/
theorem assembleWith_within {map : OpcodeMap} {src : List Text} {out : AsmOutput} (h : assembleWith map src = .ok out) :
    out.memory.within 0 0x2000 = true := by
  obtain ⟨ls, st1, st2, st3, _, h1, h2, h3, rfl⟩ := assembleWith_ok h
  obtain ⟨_, hw⟩ := passes12_ok h1 h2
  exact (pass3_ok h3 hw).1

/-- Settles O58: every byte of every pass is written by `emitBytes`, to an unwritten address below 0x2000. -/
theorem assemblyWritesEachAddressOnce : Obligations.AssemblyWritesEachAddressOnce := by
  refine ⟨fun map src out => assembleWith_within, fun l m addr v rest hw => ⟨fun ha => ?_, fun hs => ?_⟩⟩
  · rw [emitBytes, if_pos ha]
  · have ha : addr < 0x2000 := by
      by_contra hc
      rw [Sparse.find_above hw (by omega)] at hs
      cases hs
    rw [emitBytes, if_neg (by omega), Sparse.put_written v hw hs]

/-- Settles O57: the assembled memory is split into two images, each read back as a tiling. -/
theorem assembledImagesLoadToTheMemory : Obligations.AssembledImagesLoadToTheMemory := by
  intro map src out h
  obtain ⟨m, hload, hwf, hget⟩ := loadImages_images (assembleWith_within h)
  refine ⟨m, hload, hwf, hget, fun out' h' => ?_⟩
  cases h.symm.trans h'
  exact ⟨rfl, rfl⟩

/-- Settles O59: passes 2 and 3 walk the instruction lines at the same addresses. -/
theorem instructionLinesAreEncoded : Obligations.InstructionLinesAreEncoded := by
  intro map src out h
  obtain ⟨ls, st1, st2, st3, hls, h1, h2, h3, rfl⟩ := assembleWith_ok h
  obtain ⟨hnil, hw⟩ := passes12_ok h1 h2
  obtain ⟨_, hnames, _⟩ := pass3_ok h3 hw
  obtain ⟨lines, hlines, henc⟩ := linesEncoded_of_passes h2 h3 rfl rfl hw
  have hlines : st3.lines = lines := by rw [hlines, hnil, List.nil_append]
  subst hlines
  refine ⟨ls, st1, st2, hls, h1, h2, by rw [hnames], henc.length_eq, fun k q l hq hl => ?_⟩
  obtain ⟨hline, hfirst, f, ⟨token, value, hm, hv, hlabel, hbytes⟩, hnext⟩ := henc.getElem hq hl
  exact ⟨hline, hfirst, f, token, value, hm, hv, hnext, hlabel, hbytes⟩

end Sys2Proof.Machine

namespace Sys2Proof

/-! ### Decoding by format, under the default map

The opcode byte gives the form, and the form's format says how many of the bytes after it are operand bytes
(`30_encoding.md` R91, R96, R97). -/

theorem operandCountAt_of_formAt {m : OpcodeMap} {op : Byte} {f : Form} (hf : m.formAt op = some f) :
    operandCountAt m op = f.format.operandCount := by
  rw [operandCountAt, hf]

/-- An opcode byte without operand bytes is decoded alone. -/
theorem decode_noOperand {op : Byte} (f : Form) (hf : defaultMap.formAt op = some f)
    (hn : f.format.operandCount = 0) (rest : List Byte) : decode (op :: rest) = .ok (f.instr 0 0, rest) := by
  simp [decode, decodeWith_cons, operandCountAt_of_formAt hf, hn, instrAt, hf]

/-- An 8-bit operand is the byte after the opcode byte (R96). -/
theorem decode_byteOperand {op : Byte} (f : Form) (hf : defaultMap.formAt op = some f)
    (hn : f.format.operandCount = 1) (v : Byte) (rest : List Byte) :
    decode (op :: v :: rest) = .ok (f.instr v 0, rest) := by
  simp [decode, decodeWith_cons, operandCountAt_of_formAt hf, hn, instrAt, hf]

/-- A 16-bit operand is the two bytes after the opcode byte, low byte first (R97). -/
theorem decode_wordOperand {op : Byte} (f : Form) (hf : defaultMap.formAt op = some f)
    (hn : f.format.operandCount = 2) (lo hi : Byte) (rest : List Byte) :
    decode (op :: lo :: hi :: rest) = .ok (f.instr lo hi, rest) := by
  simp [decode, decodeWith_cons, operandCountAt_of_formAt hf, hn, instrAt, hf]

end Sys2Proof

namespace Sys2Proof.Machine

/-! ### 16-bit reads -/

theorem memRead16_backed {m : Memory} {a : Word} (h : a.toNat < 0x1FFF) :
    memRead16 m a = .ok (concat16 (m.get (a.toNat + 1)) (m.get a.toNat)) := by
  rcases memRead16From_cases m m a with ⟨_, he⟩ | ⟨h', _⟩ | ⟨h', _⟩
  · exact he
  · omega
  · omega

/-- At the last byte the second read fails (`20_memory.md` R58). -/
theorem memRead16_lastByte {m : Memory} {a : Word} (h : a.toNat = 0x1FFF) :
    memRead16 m a = .error (.outOfBounds 0x2000) := by
  rcases memRead16From_cases m m a with ⟨h', _⟩ | ⟨_, he⟩ | ⟨h', _⟩
  · omega
  · exact he
  · omega

theorem memRead16_unbacked {m : Memory} {a : Word} (h : 0x2000 ≤ a.toNat) :
    memRead16 m a = .error (.outOfBounds a) := by
  rcases memRead16From_cases m m a with ⟨h', _⟩ | ⟨h', _⟩ | ⟨_, he⟩
  · omega
  · omega
  · exact he

/-- The indexed effective address is the one word with the spec's value (`40_data_movement.md` R172). -/
theorem eq_indexedEa {index ea : Word} {d : Byte} (h : ea.toNat = (index.toNat + d.toNat) % 0x10000) :
    ea = indexedEa index d :=
  BitVec.eq_of_toNat_eq (h.trans (indexedEa_toNat index d).symm)

/-! ### How an instruction ends, by its effect -/

section
variable {i : Instr} {s : State}

/-- An instruction whose effect puts a value into a register ends with the value there and PC advanced. -/
theorem exec_put_ok (r : Reg) (v : r.Val) {e : Except FaultRecord r.Val} (hi : effect i s = .put r e) (he : e = .ok v) :
    exec i s = .next ((s.setReg r v).advance i.length) := by
  rw [exec_eq_perform, hi, he]
  rfl

/-- A load whose access fails raises the error of the access (`60_exceptions.md` R252). -/
theorem exec_put_error {r : Reg} {e : Except FaultRecord r.Val} {f : FaultRecord} (hi : effect i s = .put r e)
    (he : e = .error f) : exec i s = .next (s.enterFault f) := by
  rw [exec_eq_perform, hi, he]
  rfl

variable {ea : Word} {v : Byte} (hi : effect i s = .store (memWrite s.mem ea v))
include hi

/-- A store in RAM changes the byte at its address and advances PC (`20_memory.md` R57). -/
theorem exec_store_ram (hs : s.Inv) (h : 0x1000 ≤ ea.toNat) (h' : ea.toNat < 0x2000) :
    ∃ m, exec i s = .next ((s.setMem m).advance i.length) ∧
      ∀ a, m.get a = if a = ea.toNat then v else s.mem.get a := by
  refine ⟨s.mem.set ea.toNat v, ?_, fun a => Memory.get_set ea.toNat a v hs⟩
  rw [exec_eq_perform, hi, memWrite_ram h h']
  rfl

/-- A store below RAM raises ReadOnlyViolation at its address (`20_memory.md` R56). -/
theorem exec_store_rom (h : ea.toNat < 0x1000) : exec i s = .next (s.enterFault (.readOnlyViolation ea)) := by
  rw [exec_eq_perform, hi, memWrite_rom h]
  rfl

/-- A store above RAM raises OutOfBounds at its address (the spec's D8). -/
theorem exec_store_unbacked (h : 0x2000 ≤ ea.toNat) : exec i s = .next (s.enterFault (.outOfBounds ea)) := by
  rw [exec_eq_perform, hi, memWrite_unbacked h]
  rfl

end

/-! ### The two accumulators' loads, and their stores, at one address -/

/-- A load into A and a load into B from one address end alike, by whether the address is backed. -/
theorem exec_byteLoads {i j : Instr} {s : State} {ea : Word} (hi : effect i s = .put .a (memRead s.mem ea))
    (hj : effect j s = .put .b (memRead s.mem ea)) :
    (ea.toNat < 0x2000 →
      exec i s = .next ((s.setA (s.mem.get ea.toNat)).advance i.length) ∧
      exec j s = .next ((s.setB (s.mem.get ea.toNat)).advance j.length)) ∧
    (0x2000 ≤ ea.toNat →
      exec i s = .next (s.enterFault (.outOfBounds ea)) ∧
      exec j s = .next (s.enterFault (.outOfBounds ea))) := by
  refine ⟨fun h => ?_, fun h => ?_⟩
  · exact ⟨exec_put_ok .a _ hi (memRead_backed h), exec_put_ok .b _ hj (memRead_backed h)⟩
  · exact ⟨exec_put_error hi (memRead_unbacked h), exec_put_error hj (memRead_unbacked h)⟩

/-- Two stores at one address end alike, in one of the three ways a store can end. -/
theorem exec_byteStores {i j : Instr} {s : State} {ea : Word} {u v : Byte} (hs : s.Inv)
    (hi : effect i s = .store (memWrite s.mem ea u)) (hj : effect j s = .store (memWrite s.mem ea v)) :
    (0x1000 ≤ ea.toNat → ea.toNat < 0x2000 →
      (∃ m, exec i s = .next ((s.setMem m).advance i.length) ∧
        ∀ a, m.get a = if a = ea.toNat then u else s.mem.get a) ∧
      (∃ m, exec j s = .next ((s.setMem m).advance j.length) ∧
        ∀ a, m.get a = if a = ea.toNat then v else s.mem.get a)) ∧
    (ea.toNat < 0x1000 →
      exec i s = .next (s.enterFault (.readOnlyViolation ea)) ∧
      exec j s = .next (s.enterFault (.readOnlyViolation ea))) ∧
    (0x2000 ≤ ea.toNat →
      exec i s = .next (s.enterFault (.outOfBounds ea)) ∧
      exec j s = .next (s.enterFault (.outOfBounds ea))) := by
  refine ⟨fun h h' => ?_, fun h => ?_, fun h => ?_⟩
  · exact ⟨exec_store_ram hi hs h h', exec_store_ram hj hs h h'⟩
  · exact ⟨exec_store_rom hi h, exec_store_rom hj h⟩
  · exact ⟨exec_store_unbacked hi h, exec_store_unbacked hj h⟩

/-! ### The obligations on data movement -/

/-- Settles O16: the effect puts one accumulator into the other. -/
theorem transferResults : Obligations.TransferResults :=
  ⟨decode_noOperand .tab rfl rfl, decode_noOperand .tba rfl rfl,
    fun s => ⟨exec_put_ok .b s.a rfl rfl, exec_put_ok .a s.b rfl rfl⟩⟩

/-- Settles O17: the effect puts the operand byte into the accumulator. -/
theorem immediateByteLoadResults : Obligations.ImmediateByteLoadResults :=
  ⟨decode_byteOperand .ldaaImm rfl rfl, decode_byteOperand .ldabImm rfl rfl,
    fun v _ => ⟨exec_put_ok .a v rfl rfl, exec_put_ok .b v rfl rfl⟩⟩

/-- Settles O18: the effect puts the operand word into the index register. -/
theorem immediateWordLoadResults : Obligations.ImmediateWordLoadResults :=
  ⟨decode_wordOperand .ldxImm rfl rfl, decode_wordOperand .ldyImm rfl rfl,
    fun v _ => ⟨exec_put_ok .x v rfl rfl, exec_put_ok .y v rfl rfl⟩⟩

/-- Settles O19: both are loads at the operand itself. -/
theorem absoluteByteLoadResults : Obligations.AbsoluteByteLoadResults :=
  ⟨decode_wordOperand .ldaaAbs rfl rfl, decode_wordOperand .ldabAbs rfl rfl, fun _ _ => exec_byteLoads rfl rfl⟩

/-- Settles O20, by which of the two bytes are backed. -/
theorem absoluteWordLoadResults : Obligations.AbsoluteWordLoadResults := by
  refine ⟨decode_wordOperand .ldxAbs rfl rfl, decode_wordOperand .ldyAbs rfl rfl,
    fun addr v s hv => ⟨fun h => ?_, fun h => ?_, fun h => ?_⟩⟩
  · have hword : concat16 (s.mem.get (addr.toNat + 1)) (s.mem.get addr.toNat) = v :=
      BitVec.eq_of_toNat_eq ((concat16_toNat _ _).trans hv.symm)
    have hread : memRead16 s.mem addr = .ok v := by rw [memRead16_backed h, hword]
    exact ⟨exec_put_ok .x v rfl hread, exec_put_ok .y v rfl hread⟩
  · exact ⟨exec_put_error rfl (memRead16_lastByte h), exec_put_error rfl (memRead16_lastByte h)⟩
  · exact ⟨exec_put_error rfl (memRead16_unbacked h), exec_put_error rfl (memRead16_unbacked h)⟩

/-- Settles O21: both are stores at the operand itself. -/
theorem absoluteStoreResults : Obligations.AbsoluteStoreResults :=
  ⟨decode_wordOperand .staaAbs rfl rfl, decode_wordOperand .stabAbs rfl rfl, fun _ _ hs => exec_byteStores hs rfl rfl⟩

/-- Settles O22: for each index register both are loads at its effective address. -/
theorem indexedLoadResults : Obligations.IndexedLoadResults := by
  refine ⟨decode_byteOperand .ldaaX rfl rfl, decode_byteOperand .ldaaY rfl rfl, decode_byteOperand .ldabX rfl rfl,
    decode_byteOperand .ldabY rfl rfl, fun d ea s => ⟨fun hea => ?_, fun hea => ?_⟩⟩
  · obtain rfl : ea = indexedEa s.x d := eq_indexedEa hea
    exact exec_byteLoads rfl rfl
  · obtain rfl : ea = indexedEa s.y d := eq_indexedEa hea
    exact exec_byteLoads rfl rfl

/-- Settles O23: both are stores at the effective address of X. -/
theorem indexedByXStoreResults : Obligations.IndexedByXStoreResults := by
  refine ⟨decode_byteOperand .staaX rfl rfl, decode_byteOperand .stabX rfl rfl, fun d ea s hs hea => ?_⟩
  obtain rfl : ea = indexedEa s.x d := eq_indexedEa hea
  exact exec_byteStores hs rfl rfl

/-- Settles O24: both are stores at the effective address of Y. -/
theorem indexedByYStoreResults : Obligations.IndexedByYStoreResults := by
  refine ⟨decode_byteOperand .staaY rfl rfl, decode_byteOperand .stabY rfl rfl, fun d ea s hs hea => ?_⟩
  obtain rfl : ea = indexedEa s.y d := eq_indexedEa hea
  exact exec_byteStores hs rfl rfl

end Sys2Proof.Machine

namespace Sys2Proof.Machine

/-! ### The ALU operations in the spec's terms

The value, or the bits, that `41_alu.md` gives each operation (R200, R207, R209, R210); a byte with that value is the
operation's result. -/

theorem aluSum_toNat (a b : Byte) : (aluSum a b).toNat = (a.toNat + b.toNat) % 256 := by
  rw [aluSum, BitVec.toNat_ofNat, Nat.mod_mod]

theorem aluAnd_getLsbD (a b : Byte) (k : Nat) : (aluAnd a b).getLsbD k = (a.getLsbD k && b.getLsbD k) :=
  BitVec.getLsbD_and

theorem aluOr_getLsbD (a b : Byte) (k : Nat) : (aluOr a b).getLsbD k = (a.getLsbD k || b.getLsbD k) :=
  BitVec.getLsbD_or

theorem aluCom_toNat (v : Byte) : (aluCom v).toNat = 0xFF - v.toNat := BitVec.toNat_not

theorem aluCom_aluCom (v : Byte) : aluCom (aluCom v) = v := BitVec.not_not

theorem aluShl_toNat (v : Byte) : (aluShl v).toNat = 2 * v.toNat % 256 := by
  rw [aluShl, BitVec.toNat_shiftLeft, Nat.shiftLeft_eq, Nat.mul_comm]

theorem aluShr_toNat (v : Byte) : (aluShr v).toNat = v.toNat / 2 := BitVec.toNat_ushiftRight v 1

theorem eq_aluSum {a b v : Byte} (h : v.toNat = (a.toNat + b.toNat) % 256) : v = aluSum a b :=
  BitVec.eq_of_toNat_eq (h.trans (aluSum_toNat a b).symm)

theorem eq_aluAnd {a b v : Byte} (h : ∀ k, k < 8 → v.getLsbD k = (a.getLsbD k && b.getLsbD k)) : v = aluAnd a b :=
  BitVec.eq_of_getLsbD_eq fun k hk => (h k hk).trans (aluAnd_getLsbD a b k).symm

theorem eq_aluOr {a b v : Byte} (h : ∀ k, k < 8 → v.getLsbD k = (a.getLsbD k || b.getLsbD k)) : v = aluOr a b :=
  BitVec.eq_of_getLsbD_eq fun k hk => (h k hk).trans (aluOr_getLsbD a b k).symm

theorem eq_aluCom {v w : Byte} (h : w.toNat = 0xFF - v.toNat) : w = aluCom v :=
  BitVec.eq_of_toNat_eq (h.trans (aluCom_toNat v).symm)

theorem eq_aluShl {v w : Byte} (h : w.toNat = 2 * v.toNat % 256) : w = aluShl v :=
  BitVec.eq_of_toNat_eq (h.trans (aluShl_toNat v).symm)

theorem eq_aluShr {v w : Byte} (h : w.toNat = v.toNat / 2) : w = aluShr v :=
  BitVec.eq_of_toNat_eq (h.trans (aluShr_toNat v).symm)

/-- The increments wrap (`41_alu.md` R213, R214). -/
theorem eq_add_one {u v : Word} (h : v.toNat = (u.toNat + 1) % 0x10000) : v = u + 1 :=
  BitVec.eq_of_toNat_eq (h.trans (BitVec.toNat_add u 1).symm)

/-! ### A register overwritten and put back -/

theorem State.advance_advance (s : State) (m n : Nat) : (s.advance m).advance n = s.advance (m + n) := by
  simp [State.advance, State.setPc, BitVec.add_assoc, BitVec.ofNat_add]

/-- An instruction that puts back the value a register held before it was overwritten leaves only PC changed. -/
theorem exec_put_back {i : Instr} {s : State} (r : Reg) (v : r.Val) (len : Nat) {e : Except FaultRecord r.Val}
    (hi : effect i ((s.setReg r v).advance len) = .put r e) (he : e = .ok (s.reg r)) :
    exec i ((s.setReg r v).advance len) = .next (s.advance (len + i.length)) := by
  rw [exec_put_ok r _ hi he, State.advance_setReg s r v, State.setReg_setReg_same, ← State.advance_setReg,
    State.setReg_reg, State.advance_advance]

/-! ### The obligations on the ALU -/

/-- Settles O25: the effect puts the sum into the one accumulator. -/
theorem sumResults : Obligations.SumResults := by
  refine ⟨decode_noOperand .sumBa rfl rfl, decode_noOperand .sumAb rfl rfl, fun s v hv => ?_⟩
  obtain rfl : v = aluSum s.a s.b := eq_aluSum hv
  exact ⟨exec_put_ok .a (aluSum s.a s.b) rfl rfl, exec_put_ok .b (aluSum s.a s.b) rfl rfl⟩

/-- Settles O26: the effect puts the bitwise AND or OR into the one accumulator. -/
theorem bitwiseResults : Obligations.BitwiseResults := by
  refine ⟨decode_noOperand .andBa rfl rfl, decode_noOperand .andAb rfl rfl, decode_noOperand .orBa rfl rfl,
    decode_noOperand .orAb rfl rfl, fun s v w hv hw => ?_⟩
  obtain rfl : v = aluAnd s.a s.b := eq_aluAnd hv
  obtain rfl : w = aluOr s.a s.b := eq_aluOr hw
  exact ⟨exec_put_ok .a (aluAnd s.a s.b) rfl rfl, exec_put_ok .b (aluAnd s.a s.b) rfl rfl,
    exec_put_ok .a (aluOr s.a s.b) rfl rfl, exec_put_ok .b (aluOr s.a s.b) rfl rfl⟩

/-- Settles O27: the effect puts the complement into the accumulator, and the second one puts its first value back. -/
theorem complementResults : Obligations.ComplementResults := by
  refine ⟨decode_noOperand .coma rfl rfl, decode_noOperand .comb rfl rfl, fun s v w hv hw => ?_⟩
  obtain rfl : v = aluCom s.a := eq_aluCom hv
  obtain rfl : w = aluCom s.b := eq_aluCom hw
  refine ⟨exec_put_ok .a (aluCom s.a) rfl rfl, exec_put_ok .b (aluCom s.b) rfl rfl, ?_, ?_⟩
  · exact exec_put_back .a (aluCom s.a) 1 rfl (congrArg Except.ok (aluCom_aluCom s.a))
  · exact exec_put_back .b (aluCom s.b) 1 rfl (congrArg Except.ok (aluCom_aluCom s.b))

/-- Settles O28: the effect puts the accumulator, shifted by one bit, back into it. -/
theorem shiftResults : Obligations.ShiftResults := by
  refine ⟨decode_noOperand .shfaL rfl rfl, decode_noOperand .shfaR rfl rfl, decode_noOperand .shfbL rfl rfl,
    decode_noOperand .shfbR rfl rfl, fun s v => ⟨fun hv => ?_, fun hv => ?_, fun hv => ?_, fun hv => ?_⟩⟩
  · exact eq_aluShl hv ▸ exec_put_ok .a (aluShl s.a) rfl rfl
  · exact eq_aluShr hv ▸ exec_put_ok .a (aluShr s.a) rfl rfl
  · exact eq_aluShl hv ▸ exec_put_ok .b (aluShl s.b) rfl rfl
  · exact eq_aluShr hv ▸ exec_put_ok .b (aluShr s.b) rfl rfl

/-- Settles O29: the effect puts the successor of the index register back into it. -/
theorem incrementResults : Obligations.IncrementResults := by
  refine ⟨decode_noOperand .inx rfl rfl, decode_noOperand .iny rfl rfl, fun s v => ⟨fun hv => ?_, fun hv => ?_⟩⟩
  · exact eq_add_one hv ▸ exec_put_ok .x (s.x + 1) rfl rfl
  · exact eq_add_one hv ▸ exec_put_ok .y (s.y + 1) rfl rfl

end Sys2Proof.Machine

namespace Sys2Proof.Machine

/-! ### The target of an 8-bit branch, and how a branch ends -/

/-- The value of a taken 8-bit branch's target (`42_branches.md` R231): the mask keeps the high byte of PC and clears the
low one, which the operand fills. -/
theorem pageTarget_toNat (pc : Word) (t : Byte) : (pageTarget pc t).toNat = pc.toNat / 256 * 256 + t.toNat := by
  have hpc := pc.isLt
  have ht := t.isLt
  have hn : (pageTarget pc t).toNat = pc.toNat &&& 0xFF00 ||| t.toNat := by
    rw [pageTarget, BitVec.toNat_or, BitVec.toNat_and, zext16_toNat]
    rfl
  have hpage : (pageTarget pc t).toNat / 2 ^ 8 = pc.toNat / 2 ^ 8 := by
    rw [hn, Nat.or_div_two_pow, Nat.and_div_two_pow, Nat.div_eq_of_lt ht, Nat.or_zero]
    exact (Nat.and_two_pow_sub_one_eq_mod _ 8).trans (Nat.mod_eq_of_lt (by omega))
  have hbyte : (pageTarget pc t).toNat % 2 ^ 8 = t.toNat := by
    rw [hn, Nat.or_mod_two_pow, Nat.and_mod_two_pow, Nat.mod_eq_of_lt ht]
    exact (congrArg (· ||| t.toNat) (Nat.and_zero _)).trans (Nat.zero_or _)
  omega

/-- The target of an 8-bit branch is the one word with the spec's value. -/
theorem eq_pageTarget {pc target : Word} {t : Byte} (h : target.toNat = pc.toNat / 256 * 256 + t.toNat) :
    target = pageTarget pc t :=
  BitVec.eq_of_toNat_eq (h.trans (pageTarget_toNat pc t).symm)

/-- An instruction whose effect is a jump to one of two addresses, by a condition, changes only PC: to that address. -/
theorem exec_jump_ite {i : Instr} {s : State} {c : Bool} {p : Prop} [Decidable p] {taken next : Word}
    (hc : c = true ↔ p) (hi : effect i s = .jump (if c then taken else next)) :
    exec i s = .next (s.setPc (if p then taken else next)) := by
  rw [exec_eq_perform, hi, if_congr hc rfl rfl]
  rfl

/-! ### The obligations on the branches -/

/-- Settles O31: each effect is a jump by the branch's condition on A, to the target in the page or to PC + 2. -/
theorem pageBranchResults : Obligations.PageBranchResults := by
  refine ⟨decode_byteOperand .beq rfl rfl, decode_byteOperand .bne rfl rfl, decode_byteOperand .bn rfl rfl,
    decode_byteOperand .bp rfl rfl, fun t s target htarget => ?_⟩
  obtain rfl : target = pageTarget s.pc t := eq_pageTarget htarget
  obtain ⟨heq, hne, hneg, hpos, _, _⟩ := conditionsPartitionA s.a
  exact ⟨exec_jump_ite heq rfl, exec_jump_ite hne rfl, exec_jump_ite hneg rfl, exec_jump_ite hpos rfl⟩

/-- Settles O32: each effect is a jump by the branch's condition on A, to the operand or to PC + 3. -/
theorem absoluteBranchResults : Obligations.AbsoluteBranchResults := by
  refine ⟨decode_wordOperand .beq16 rfl rfl, decode_wordOperand .bne16 rfl rfl, decode_wordOperand .bn16 rfl rfl,
    decode_wordOperand .bp16 rfl rfl, fun t s => ?_⟩
  obtain ⟨heq, hne, hneg, hpos, _, _⟩ := conditionsPartitionA s.a
  exact ⟨exec_jump_ite heq rfl, exec_jump_ite hne rfl, exec_jump_ite hneg rfl, exec_jump_ite hpos rfl⟩

end Sys2Proof.Machine

namespace Sys2Proof.Machine

/-! ### The record an effect raises

Between `exec` and an error's record stands the effect: the instruction raises exactly when its effect holds a record
(`60_exceptions.md` R252), and the record is that of the access that failed (R254). -/

@[simp] theorem State.setReg_fault (s : State) (r : Reg) (v : r.Val) : (s.setReg r v).fault = s.fault := by
  cases r <;> rfl

@[simp] theorem State.setReg_mem (s : State) (r : Reg) (v : r.Val) : (s.setReg r v).mem = s.mem := by
  cases r <;> rfl

/-- The record of the error an effect raises, if it raises one. -/
def Effect.record : Effect → Option FaultRecord
  | .put _ (.error e) | .store (.error e) | .raise e => some e
  | .put _ (.ok _) | .store (.ok _) | .jump _ | .refuse _ => none

/-- An effect with a record enters the fault state, and nothing else changes. -/
theorem Effect.perform_of_record {e : Effect} {f : FaultRecord} (h : e.record = some f) (len : Nat) (s : State) :
    e.perform len s = .next (s.enterFault f) := by
  cases e with
  | put r v => cases v <;> cases h; rfl
  | store m => cases m <;> cases h; rfl
  | raise e => cases h; rfl
  | jump | refuse => cases h

/-- An effect without a record leaves the fault state alone. -/
theorem Effect.perform_fault {e : Effect} {len : Nat} {s t : State} (hr : e.record = none)
    (h : e.perform len s = .next t) : t.fault = s.fault := by
  cases e with
  | put r v =>
    cases v with
    | error f => cases hr
    | ok v => cases h; exact s.setReg_fault r v
  | store m =>
    cases m with
    | error f => cases hr
    | ok m => cases h; rfl
  | jump pc => cases h; rfl
  | raise f => cases hr
  | refuse op => cases h

/-- An instruction that answers a next state leaves the fault state alone, or enters it with its effect's record. -/
theorem exec_fault {i : Instr} {s t : State} (h : exec i s = .next t) :
    t.fault = s.fault ∨ ∃ f, (effect i s).record = some f ∧ t = s.enterFault f := by
  rw [exec_eq_perform] at h
  cases hr : (effect i s).record with
  | none => exact .inl (Effect.perform_fault hr h)
  | some f =>
    rw [Effect.perform_of_record hr] at h
    cases h
    exact .inr ⟨f, rfl, rfl⟩

/-- A step that ends with a record raised it, in the fetch or in the instruction fetched, and changed nothing else. -/
theorem stepWith_record {map : OpcodeMap} {s t : State} {f : FaultRecord} (h : stepWith map s = .next t)
    (ht : t.fault = some f) : t = s.enterFault f ∧
      (fetchInstr map s = .error f ∨ ∃ i, fetchInstr map s = .ok i ∧ (effect i s).record = some f) := by
  obtain ⟨_, _, hnone⟩ := faultStateIsTerminal
  have hf : s.fault = none := hnone map s t h
  cases he : fetchInstr map s with
  | error e =>
    rw [stepWith_of_fetch_error hf he] at h
    cases h
    cases ht
    exact ⟨rfl, .inl rfl⟩
  | ok i =>
    rw [stepWith_of_fetch_ok hf he] at h
    rcases exec_fault h with hs | ⟨e, hr, rfl⟩
    · rw [ht, hf] at hs
      cases hs
    · cases ht
      exact ⟨rfl, .inr ⟨i, rfl, hr⟩⟩

/-! ### The access a record names -/

/-- The first of some addresses that no memory backs (`20_memory.md` R50). -/
def firstUnbacked (as : List Word) : Option Word := as.find? fun a => decide (0x2000 ≤ a.toNat)

theorem firstUnbacked_cons_unbacked {a : Word} (h : 0x2000 ≤ a.toNat) (as : List Word) :
    firstUnbacked (a :: as) = some a :=
  List.find?_cons_of_pos (decide_eq_true h)

theorem firstUnbacked_cons_backed {a : Word} (h : a.toNat < 0x2000) (as : List Word) :
    firstUnbacked (a :: as) = firstUnbacked as :=
  List.find?_cons_of_neg (by simpa using h)

/-- What the record of an instruction's own error names: the first data address that is not backed, the store address
in ROM, or the opcode byte at PC (`60_exceptions.md` R251, R254). -/
def NamesCause (i : Instr) (s : State) : FaultRecord → Prop
  | .outOfBounds addr => firstUnbacked (dataAddresses i s) = some addr
  | .readOnlyViolation addr => addr.toNat < 0x1000 ∧ storeAddress i s = some addr
  | .unknownInstruction op pc => i = .illegal op ∧ pc = s.pc

section
variable {i : Instr} {s : State} {ea : Word} {f : FaultRecord}

theorem namesCause_of_read (hd : dataAddresses i s = [ea]) (h : memRead s.mem ea = .error f) : NamesCause i s f := by
  rcases memRead_cases s.mem ea with ⟨_, he⟩ | ⟨hea, he⟩ <;> rw [he] at h <;> cases h
  rw [NamesCause, hd]
  exact firstUnbacked_cons_unbacked hea []

theorem namesCause_of_read16 (hd : dataAddresses i s = [ea, ea + 1]) (h : memRead16 s.mem ea = .error f) :
    NamesCause i s f := by
  rcases memRead16From_cases s.mem s.mem ea with ⟨_, he⟩ | ⟨hea, he⟩ | ⟨hea, he⟩ <;> rw [memRead16, he] at h <;> cases h
  · have hnext : ea + 1 = 0x2000 := by bv_omega
    rw [NamesCause, hd, firstUnbacked_cons_backed (by omega), hnext]
    rfl
  · rw [NamesCause, hd]
    exact firstUnbacked_cons_unbacked hea [ea + 1]

theorem namesCause_of_write {v : Byte} (hd : dataAddresses i s = [ea]) (ha : storeAddress i s = some ea)
    (h : memWrite s.mem ea v = .error f) : NamesCause i s f := by
  rcases memWrite_cases s.mem ea v with ⟨hea, he⟩ | ⟨_, _, he⟩ | ⟨hea, he⟩ <;> rw [he] at h <;> cases h
  · exact ⟨hea, ha⟩
  · rw [NamesCause, hd]
    exact firstUnbacked_cons_unbacked hea []

/-- The record of an effect that puts the outcome of an access into a register is the error of the access. -/
theorem Effect.record_put {r : Reg} {v : Except FaultRecord r.Val} (h : (Effect.put r v).record = some f) :
    v = .error f := by
  cases v <;> cases h; rfl

/-- The record of a store is the error of its access. -/
theorem Effect.record_store {m : Except FaultRecord Memory} (h : (Effect.store m).record = some f) : m = .error f := by
  cases m <;> cases h; rfl

/-- The record of an instruction's error names its cause: the loads of one byte, the loads of two, the stores and the
opcode bytes above the range are the instructions that raise. -/
theorem namesCause_of_record (h : (effect i s).record = some f) : NamesCause i s f := by
  cases i with
  | ldaaAbs | ldabAbs | ldaaX | ldaaY | ldabX | ldabY => exact namesCause_of_read rfl (Effect.record_put h)
  | ldxAbs | ldyAbs => exact namesCause_of_read16 rfl (Effect.record_put h)
  | staaAbs | stabAbs | staaX | staaY | stabX | stabY => exact namesCause_of_write rfl rfl (Effect.record_store h)
  | illegal op => cases h; exact ⟨rfl, rfl⟩
  | _ => cases h

end

/-- A fetch that fails names PC, or 0x2000 as the first operand address that is not backed. -/
theorem fetchInstr_error {map : OpcodeMap} {s : State} {f : FaultRecord} (h : fetchInstr map s = .error f) :
    (0x2000 ≤ s.pc.toNat ∧ f = .outOfBounds s.pc) ∨
    (s.pc.toNat < 0x2000 ∧ 0x2000 ≤ s.pc.toNat + operandCountAt map (s.mem.get s.pc.toNat) ∧ f = .outOfBounds 0x2000) := by
  rcases fetchFrom_cases map s.mem s.mem s.mem s.pc with ⟨hp, he⟩ | ⟨hp, hn, he⟩ | ⟨_, _, _, he, _⟩ <;>
    rw [fetchInstr, he] at h <;> cases h
  · exact .inl ⟨hp, rfl⟩
  · exact .inr ⟨hp, hn, rfl⟩

/-- An illegal instruction is fetched only where the opcode byte at PC is above the range (R93). -/
theorem fetchInstr_illegal {map : OpcodeMap} {s : State} {op : Byte} (h : fetchInstr map s = .ok (.illegal op)) :
    op = s.mem.get s.pc.toNat ∧ 0x32 ≤ op.toNat := by
  rcases fetchFrom_cases map s.mem s.mem s.mem s.pc with ⟨_, he⟩ | ⟨_, _, he⟩ | ⟨_, b1, b2, he, _⟩ <;>
    rw [fetchInstr, he] at h
  · cases h
  · cases h
  injection h with h
  rcases instrAt_cases map (s.mem.get s.pc.toNat) b1 b2 with ⟨f, _, hi⟩ | ⟨_, _, hi⟩ | ⟨_, hop, hi⟩ <;> rw [hi] at h
  · have hform := f.instr_form b1 b2
    rw [h] at hform
    cases hform
  · cases h
  · cases h
    exact ⟨rfl, hop⟩

/-! ### The instructions that make no data access -/

/-- The effect of an instruction of a register format, or of a branch, is a register write or a jump (R254). -/
theorem effect_of_registerFormat {i : Instr} {f : Form} (s : State) (hi : i.form = some f)
    (hf : f.format = .inh ∨ f.format = .imm8 ∨ f.format = .imm16 ∨ f.format = .br8 ∨ f.format = .br16) :
    (∃ r v, effect i s = .put r (.ok v)) ∨ ∃ pc, effect i s = .jump pc := by
  cases i with
  | beq | bne | bn | bp | beq16 | bne16 | bn16 | bp16 => exact .inr ⟨_, rfl⟩
  | undocumented | illegal => cases hi
  | ldaaAbs | ldabAbs | staaAbs | stabAbs | ldxAbs | ldyAbs | ldaaX | ldaaY | ldabX | ldabY | staaX | staaY | stabX
  | stabY => cases hi; simp [Form.format] at hf
  | _ => exact .inl ⟨_, _, rfl⟩

/-! ### The obligations on errors -/

/-- Settles O37: what is raised is the record of the instruction's effect. -/
theorem faultChangesOnlyByRaising : Obligations.FaultChangesOnlyByRaising := by
  intro i s t h
  exact (exec_fault h).imp_right fun ⟨f, _, ht⟩ => ⟨f, ht⟩

/-- Settles O39: neither a register write nor a jump touches the fault state or memory. -/
theorem registerInstructionsNeverRaise : Obligations.RegisterInstructionsNeverRaise := by
  intro i f s hi hf
  rcases effect_of_registerFormat s hi hf with ⟨r, v, he⟩ | ⟨pc, he⟩
  · exact ⟨_, exec_put_ok r v he rfl, s.setReg_fault r v, s.setReg_mem r v⟩
  · exact ⟨s.setPc pc, by rw [exec_eq_perform, he]; rfl, rfl, rfl⟩

/-- Settles O41: the state after is the state before with the record. -/
theorem errorsArePrecise : Obligations.ErrorsArePrecise := by
  intro map s t f h ht
  obtain ⟨rfl, _⟩ := stepWith_record h ht
  exact ⟨rfl, rfl, rfl, rfl, rfl, rfl⟩

/-- Settles O42: a record is that of the fetch, or of the instruction fetched. -/
theorem errorRecordsNameTheirCause : Obligations.ErrorRecordsNameTheirCause := by
  intro map s t f h ht
  obtain ⟨_, he | ⟨i, hi, hr⟩⟩ := stepWith_record h ht
  · rcases fetchInstr_error he with ⟨hp, rfl⟩ | ⟨hp, hn, rfl⟩
    · exact .inl ⟨hp, rfl⟩
    · exact .inr (.inl ⟨hp, hn, rfl⟩)
  have hcause := namesCause_of_record hr
  cases f with
  | outOfBounds addr => exact .inr (.inr ⟨i, hi, hcause⟩)
  | readOnlyViolation addr =>
    obtain ⟨hrom, ha⟩ := hcause
    exact ⟨hrom, i, hi, ha⟩
  | unknownInstruction op pc =>
    obtain ⟨rfl, hpc⟩ := hcause
    obtain ⟨hop, hrange⟩ := fetchInstr_illegal hi
    exact ⟨hrange, hpc, hop⟩

end Sys2Proof.Machine

namespace Sys2Proof.Machine

/-! ### A step with host writes stops only in the fault state -/

theorem putResult_ne_fault {α : Type} (put : State → α → State) (v : Except FaultRecord α) (len : Nat) (s : State)
    (f : Fault) : putResult put v len s ≠ .fault f := by
  cases v <;> nofun

/-- An instruction never answers a stop: `step` alone does (`10_state.md` R34). -/
theorem exec_ne_fault (i : Instr) (s : State) (f : Fault) : exec i s ≠ .fault f := by
  rw [exec_eq_perform]
  cases effect i s with
  | put r v => exact putResult_ne_fault _ v _ s f
  | store m => exact putResult_ne_fault _ m _ s f
  | jump | raise | refuse => nofun

/-- An instruction among host writes is a load of two bytes, or the instruction on the memory its one access sees. -/
theorem execBetween_eq (m1 m2 : Memory) (i : Instr) (s : State) :
    (∃ put ea, execBetween m1 m2 i s = loadWordFrom m1 m2 put ea 3 (s.setMem m1)) ∨
    execBetween m1 m2 i s = exec i (s.setMem m1) := by
  cases i with
  | ldxAbs | ldyAbs => exact .inl ⟨_, _, rfl⟩
  | _ => exact .inr rfl

theorem execBetween_ne_fault (m1 m2 : Memory) (i : Instr) (s : State) (f : Fault) : execBetween m1 m2 i s ≠ .fault f := by
  rcases execBetween_eq m1 m2 i s with ⟨put, ea, he⟩ | he <;> rw [he]
  · exact putResult_ne_fault put _ 3 _ f
  · exact exec_ne_fault i _ f

theorem onNext_fault {g : State → State} {r : StepResult} {f : Fault} (h : onNext g r = .fault f) : r = .fault f := by
  cases r <;> cases h; rfl

theorem stepBetweenSteps_fault {map : OpcodeMap} {c : Mmio} {ws : List (List HostWrite)} {s : State} {f : Fault}
    (h : stepBetweenSteps map c ws s = .fault f) : ∃ r, s.fault = some r ∧ f = .stopped r := by
  obtain ⟨_, hstopped, _⟩ := faultStateIsTerminal
  rw [stepBetweenSteps] at h
  obtain ⟨r, hr, rfl⟩ := hstopped map _ f h
  exact ⟨r, hr, rfl⟩

theorem stepBetweenAccesses_fault {map : OpcodeMap} {c : Mmio} {ws : List (List HostWrite)} {s : State} {f : Fault}
    (h : stepBetweenAccesses map c ws s = .fault f) : ∃ r, s.fault = some r ∧ f = .stopped r := by
  cases hf : s.fault with
  | some r =>
    rw [stepBetweenAccesses_faulted hf] at h
    cases h
    exact ⟨r, rfl, rfl⟩
  | none =>
    cases he : fetchFrom map (memorySeen c ws s 0) (memorySeen c ws s 1) (memorySeen c ws s 2) s.pc with
    | error r => rw [stepBetweenAccesses_of_fetch_error hf he] at h; cases h
    | ok i =>
      rw [stepBetweenAccesses_of_fetch_ok hf he] at h
      exact absurd (onNext_fault h) (execBetween_ne_fault _ _ i s f)

section StepWithHost

variable {p : Params} {ws : List (List HostWrite)} {s : State}

theorem stepWithHost_faulted {r : FaultRecord} (h : s.fault = some r) : stepWithHost p ws s = .fault (.stopped r) := by
  rw [stepWithHost]
  cases p.interleave with
  | betweenSteps => exact stepWith_faulted ((s.setMem_fault _).trans h)
  | betweenAccesses => exact stepBetweenAccesses_faulted h

/-- A step stops only because of the record already in the fault state, under either discipline. -/
theorem stepWithHost_fault {f : Fault} (h : stepWithHost p ws s = .fault f) : ∃ r, s.fault = some r ∧ f = .stopped r := by
  rw [stepWithHost] at h
  cases hp : p.interleave with
  | betweenSteps =>
    rw [hp] at h
    exact stepBetweenSteps_fault h
  | betweenAccesses =>
    rw [hp] at h
    exact stepBetweenAccesses_fault h

theorem stepWithHost_refused {r : Refusal} (h : stepWithHost p ws s = .refused r) : s.fault = none := by
  cases hf : s.fault with
  | none => rfl
  | some e => rw [stepWithHost_faulted hf] at h; cases h

end StepWithHost

/-! ### The end of a run -/

/-- What each way to end says of a run over `ticks` (`60_exceptions.md` R268). -/
def RunEnd.Says (p : Params) (ticks : List Tick) : RunEnd → Prop
  | .stopped t => t.pc ∈ p.stopSet ∧ t.fault = none
  | .faulted t r => t.fault = some r
  | .refused t _ => t.fault = none
  | .cancelled _ => ∃ k ∈ ticks, k.cancel = true
  | .unfinished _ => ∀ k ∈ ticks, k.cancel = false

/-- An iteration before that was not cancelled changes nothing of what the end says. -/
theorem RunEnd.Says.cons {p : Params} {tick : Tick} {ticks : List Tick} {e : RunEnd} (hc : tick.cancel = false)
    (h : e.Says p ticks) : e.Says p (tick :: ticks) := by
  cases e with
  | stopped | faulted | refused => exact h
  | cancelled =>
    obtain ⟨k, hk, hcancel⟩ := h
    exact ⟨k, List.mem_cons_of_mem tick hk, hcancel⟩
  | unfinished => exact List.forall_mem_cons.mpr ⟨hc, h⟩

/-- By induction on the iterations, each ending the run or going on without a cancel. -/
theorem drive_says (p : Params) (ticks : List Tick) (s : State) : (drive p ticks s).Says p ticks := by
  induction ticks generalizing s with
  | nil => nofun
  | cons tick ticks ih =>
    cases hc : tick.cancel with
    | true =>
      simp only [drive, hc]
      exact ⟨tick, List.mem_cons_self, hc⟩
    | false =>
      cases hw : stepWithHost p tick.arrivals s with
      | fault f =>
        obtain ⟨r, hr, rfl⟩ := stepWithHost_fault hw
        simp only [drive, hc, hw]
        exact hr
      | refused r =>
        simp only [drive, hc, hw]
        exact stepWithHost_refused hw
      | next u =>
        cases hu : u.fault with
        | some r =>
          simp only [drive, hc, hw, hu]
          exact hu
        | none =>
          by_cases hstop : u.pc ∈ p.stopSet
          · simp only [drive, hc, hw, hu, hstop]
            exact ⟨hstop, hu⟩
          · simp only [drive, hc, hw, hu, hstop]
            exact (ih u).cons hc

/-! ### The obligations on the agents around the core -/

/-- Settles O54: each end is told by the branch of `drive` that reaches it. -/
theorem runEndsAsItSays : Obligations.RunEndsAsItSays := drive_says

/-- Settles O50: the two bounds of each kind of cell lie within the bounds of the placement. -/
theorem cellsLieInRamAndAreDisjoint : Obligations.CellsLieInRamAndAreDisjoint := by
  intro c a hc
  refine ⟨fun ha => ?_, fun ⟨hctl, hin⟩ => ?_⟩
  · simp only [mmioValid, isControlCell, isInputCell, Bool.and_eq_true, Bool.or_eq_true, decide_eq_true_eq] at hc ha
    omega
  · rw [not_control_of_input hc hin] at hctl
    cases hctl

/-- Settles O55, by the two tests of `debugRun`: PC = 0, then the confirmation. -/
theorem debuggerRunRestartsAtZero : Obligations.DebuggerRunRestartsAtZero := by
  intro p ticks s hpc
  refine ⟨?_, ?_, ?_⟩
  · rw [debugRun, if_neg hpc, if_neg Bool.false_ne_true]
  · rw [debugRun, if_neg hpc, if_pos rfl]
    rfl
  · rw [debugRun, if_pos rfl]
    rfl

end Sys2Proof.Machine

namespace Sys2Proof.Machine

/-! ### The start of a run and its memory -/

@[simp] theorem Memory.wf_nil : Memory.wf [] = true := rfl

/-- A run starts inside the invariant exactly when the loaded memory is canonical; the registers have no part in it. -/
theorem State.start_inv_iff (r : InitRegs) (m : Memory) : (State.start r m).Inv ↔ m.wf = true := by
  rw [State.Inv, State.start_mem]

/-- With no image loaded, the memory after reset lists no byte (R292, D13). -/
@[simp] theorem State.reset_mem : State.reset.mem = [] := State.start_mem InitRegs.zero []

/-! ### The obligations on the start of a run -/

/-- Settles O2, field by field of `State.start`. -/
theorem startTakesInitRegsAndImage : Obligations.StartTakesInitRegsAndImage := fun r m =>
  ⟨State.start_a r m, State.start_b r m, State.start_x r m, State.start_y r m, State.start_pc r m, State.start_mem r m,
    State.start_fault r m⟩

/-- Settles O1: reset is a start, and a start fixes PC and the fault state whatever it is given. -/
theorem resetStartsAtZeroWithoutFault : Obligations.ResetStartsAtZeroWithoutFault :=
  ⟨State.start_pc InitRegs.zero [], State.start_fault InitRegs.zero []⟩

/-- Settles O3: the empty memory is canonical, and an address that is not listed reads 0. -/
theorem resetMemoryIsCanonicalAndZero : Obligations.ResetMemoryIsCanonicalAndZero := by
  refine ⟨(State.start_inv_iff InitRegs.zero []).mpr Memory.wf_nil, fun a => ?_⟩
  rw [State.reset_mem, Memory.get_nil]

end Sys2Proof.Machine
